-- ==== Sys2Proof/Word.lean ====
section
/-! DEFINITION. The word types of the CORE: the byte of a register, a memory cell or an operand, and the 9-bit program counter. -/

namespace Sys2Proof

/-- A register, a memory cell, an opcode or an operand: an unsigned value 0..255 (00_scope.md R8; 10_state.md R20). -/
abbrev Byte := BitVec 8

/-- The program counter: 9 bits, of which the values 0..256 are reachable (10_state.md R26, decision D2). -/
abbrev PcWord := BitVec 9

end Sys2Proof
end

