-- ==== Sys2Proof/Machine/State.lean ====
section
/-! DEFINITION. The state record of 10_state.md R44, with the trace port's log beside it, the state after reset, and the
reasons for which a step gives no next state. -/

namespace Sys2Proof.Machine

/-- The run state (10_state.md R37). -/
inductive RunState where
  /-- Instructions execute. -/
  | running
  /-- Terminal, reached only by HLT (44_control.md R130). -/
  | halted
  /-- Terminal, entered by a fatal fault (60_exceptions.md R151). -/
  | faulted
  deriving DecidableEq, Repr

/-- The fatal conditions (60_exceptions.md R150). -/
inductive FaultCause where
  /-- An access or a stack pointer outside 0..255. -/
  | addressOutOfRange
  /-- A register operand above 7. -/
  | invalidRegister
  /-- An ALU kind outside ADD, MUL and CMP; no encoding reaches it. -/
  | unsupportedOperation
  /-- A read of a register that nothing has written since reset. -/
  | uninitializedRegister
  deriving DecidableEq, Repr

/-- The fault record's three fields (10_state.md R39). -/
structure FaultRecord where
  /-- The condition raised. -/
  cause : FaultCause
  /-- The value of pc at the faulting step. -/
  faultPc : PcWord
  /-- The integer the raising primitive gave. -/
  info : Int
  deriving DecidableEq, Repr

/-- The events of the diag port (10_state.md R42): the spec has one. -/
inductive DiagEvent where
  /-- The address and the value of an unrecognized opcode byte (40_cycle.md R96). -/
  | unrecognizedOpcode (pc : PcWord) (byte : Byte)
  deriving DecidableEq, Repr

/-- A record of the trace port (40_cycle.md R97); `none` is the spec's `absent`. -/
structure TraceRecord where
  /-- The program counter. -/
  pc : PcWord
  /-- The flags register. -/
  fl : Byte
  /-- The byte at pc. -/
  b0 : Option Byte
  /-- The byte at pc + 1. -/
  b1 : Option Byte
  /-- The byte at pc + 2. -/
  b2 : Option Byte
  deriving DecidableEq, Repr

/-- Memory as the cells that differ from what an unlisted cell reads as, addresses strictly rising. -/
abbrev Memory := List Host.Cell

/-- The machine's state (10_state.md R44). IR is transient and no part of it (R35). -/
structure State where
  /-- M (20_memory.md R50). -/
  mem : Memory
  /-- R0..R7, R7 being SP (10_state.md R20, R21). -/
  regs : Vector Byte 8
  /-- The written bit of each register (10_state.md R24). -/
  written : Vector Bool 8
  /-- The program counter (10_state.md R26). -/
  pc : PcWord
  /-- FL (10_state.md R30). -/
  fl : Byte
  /-- The run state (10_state.md R37). -/
  run : RunState
  /-- The fault record (10_state.md R39). -/
  fault : Option FaultRecord
  /-- The out port, oldest entry first (10_state.md R41). -/
  out : List Byte
  /-- The diag port, oldest event first (10_state.md R42). -/
  diag : List DiagEvent
  /-- The trace port, oldest record first (10_state.md R43; log entry 6). -/
  trace : List TraceRecord
  deriving DecidableEq, Repr

/-- The state after reset (70_reset_and_hazards.md R170). R0..R6 are unwritten; the byte they hold, 0x00, is a DESIGN
CHOICE that no instruction can read (log entry 1). -/
def State.reset : State where
  mem := []
  regs := #v[0x00, 0x00, 0x00, 0x00, 0x00, 0x00, 0x00, 0xF4]
  written := #v[false, false, false, false, false, false, false, true]
  pc := 0
  fl := 0x00
  run := .running
  fault := none
  out := []
  diag := []
  trace := []

/-- Why there is no step. The CORE's own fatal conditions are no `Fault`: an instruction that raises one goes to the
Faulted state, which is a next state (60_exceptions.md R151). -/
inductive Fault where
  /-- Raised by `step` alone, in the run state Halted: it has no step (40_cycle.md R90). Safe: the spec gives no next state. -/
  | halted
  /-- Raised by `step` alone, in the run state Faulted: it has no step (40_cycle.md R90). Safe: the spec gives no next state. -/
  | faulted
  deriving DecidableEq, Repr

/-- What the model gives no meaning. -/
inductive Refusal where
  /-- Raised by an arm of `exec` whose instruction has no meaning yet; no arm does. Safe: the machine stops. -/
  | notModelled (mnemonic : String)
  /-- Raised by `State.launch` alone, for a launch image of more than 256 bytes (20_memory.md R64, decision D21).
  Safe: the spec refuses such a launch. -/
  | launchImageTooLong
  deriving DecidableEq, Repr

end Sys2Proof.Machine
end

