-- ==== Sys2Proof/Machine/Ops.lean ====
section
/-! DEFINITION. The pseudocode primitives on memory, the registers, the PC and the ports (00_scope.md R9, R10), stack-pointer
arithmetic, and taking a fatal fault. -/

namespace Sys2Proof.Machine

/-- A condition raised while an instruction runs: which one, and the integer that goes with it (60_exceptions.md R150). -/
structure Raise where
  /-- The condition. -/
  cause : FaultCause
  /-- The info recorded. -/
  info : Int
  deriving DecidableEq, Repr

/-! ### Memory -/

/-- What a cell that the memory does not list reads as: the reset value of every cell (20_memory.md R51). -/
def Memory.unlisted : Byte := 0x00

/-- The byte at an address. -/
def Memory.readByte : Memory → Nat → Byte
  | [], _ => Memory.unlisted
  | (a, b) :: m, x => if a = x then b else Memory.readByte m x

/-- Put a byte at an address, keeping addresses strictly rising and no cell equal to `Memory.unlisted`. -/
def Memory.writeByte : Memory → Nat → Byte → Memory
  | [], x, v => if v = Memory.unlisted then [] else [(x, v)]
  | (a, b) :: m, x, v =>
    if a < x then (a, b) :: Memory.writeByte m x v
    else
      let rest := if a = x then m else (a, b) :: m
      if v = Memory.unlisted then rest else (x, v) :: rest

/-- The canonical form: addresses strictly rising and inside 0..255 (20_memory.md R50), no cell equal to
`Memory.unlisted`. -/
def Memory.wf : Memory → Bool
  | [] => true
  | (a, b) :: m => decide (a < 256) && b != Memory.unlisted && m.all (fun cell => decide (a < cell.1)) && Memory.wf m

/-- The byte of M at an address, as an observer of the state. -/
def State.byteAt (s : State) (a : Nat) : Byte :=
  s.mem.readByte a

/-- Whether an integer is the address of a cell (20_memory.md R50). -/
abbrev inRange (addr : Int) : Prop :=
  0 ≤ addr ∧ addr ≤ 255

/-- MemRead(addr, 1): the byte at `addr`, or AddressOutOfRange(addr) (20_memory.md R52). -/
def State.memRead (s : State) (addr : Int) : Except Raise Byte :=
  if inRange addr then .ok (s.byteAt addr.toNat) else .error ⟨.addressOutOfRange, addr⟩

/-- M[a] <- v, the address already checked. -/
def State.setByte (s : State) (a : Nat) (v : Byte) : State :=
  { s with mem := s.mem.writeByte a v }

/-- MemWrite(addr, 1, v): M[addr] <- v, or AddressOutOfRange(addr) and no write (20_memory.md R53). -/
def State.memWrite (s : State) (addr : Int) (v : Byte) : Except Raise State :=
  if inRange addr then .ok (s.setByte addr.toNat v) else .error ⟨.addressOutOfRange, addr⟩

/-! ### Registers -/

/-- R7 is SP (10_state.md R21). -/
def spIndex : Fin 8 := 7

/-- The byte a register holds, as an observer of the state. -/
def State.reg (s : State) (i : Fin 8) : Byte :=
  s.regs[i]

/-- The written bit of a register, as an observer of the state. -/
def State.isWritten (s : State) (i : Fin 8) : Bool :=
  s.written[i]

/-- x[i]: the value of register i, or UninitializedRegister(i) where nothing has written it since reset
(00_scope.md R9; 10_state.md R24). -/
def State.readReg (s : State) (i : Fin 8) : Except Raise Byte :=
  if s.isWritten i then .ok (s.reg i) else .error ⟨.uninitializedRegister, i.val⟩

/-- x[i] <- v: writes the value and marks the register written (00_scope.md R9; 10_state.md R24). -/
def State.writeReg (s : State) (i : Fin 8) (v : Byte) : State :=
  { s with regs := s.regs.set i v, written := s.written.set i true }

/-! ### Stack-pointer arithmetic -/

/-- SPDec (43_stack.md R120): SP - 1 as an integer, never wrapped. -/
def State.spDec (s : State) : Except Raise State := do
  let sp ← s.readReg spIndex
  if (sp.toNat : Int) - 1 < 0 then .error ⟨.addressOutOfRange, (sp.toNat : Int) - 1⟩
  else .ok (s.writeReg spIndex (BitVec.ofNat 8 (sp.toNat - 1)))

/-- SPInc (43_stack.md R120): SP + 1 as an integer, never wrapped. -/
def State.spInc (s : State) : Except Raise State := do
  let sp ← s.readReg spIndex
  if (sp.toNat : Int) + 1 > 255 then .error ⟨.addressOutOfRange, (sp.toNat : Int) + 1⟩
  else .ok (s.writeReg spIndex (BitVec.ofNat 8 (sp.toNat + 1)))

/-! ### The program counter, FL and the ports -/

/-- pc <- target for the 8-bit target of a control transfer (44_control.md R134). -/
def State.jump (s : State) (target : Byte) : State :=
  { s with pc := target.setWidth 9 }

/-- pc <- pc + n, where n is 1 + operand count (40_cycle.md R95). The 9 bits hold every result a step can reach (log
entry 10). -/
def State.advance (s : State) (n : Nat) : State :=
  { s with pc := BitVec.ofNat 9 (s.pc.toNat + n) }

/-- FL <- v, of the instructions used by CMP alone (10_state.md R31). -/
def State.writeFl (s : State) (v : Byte) : State :=
  { s with fl := v }

/-- Emit(v): append a byte to the out port (10_state.md R41). -/
def State.emit (s : State) (v : Byte) : State :=
  { s with out := s.out ++ [v] }

/-- Diag(e): append an event to the diag port (10_state.md R42). -/
def State.diagnose (s : State) (e : DiagEvent) : State :=
  { s with diag := s.diag ++ [e] }

/-- run <- Halted (44_control.md R130). -/
def State.halt (s : State) : State :=
  { s with run := .halted }

/-! ### Faults -/

/-- Taking a fatal fault (60_exceptions.md R151, R152): run <- Faulted, and the record {cause, fault_pc, info} with the pc of
the faulting step. Nothing else changes. The CORE has no return from it: Faulted is terminal (60_exceptions.md R157). -/
def State.takeFault (s : State) (r : Raise) : State :=
  { s with run := .faulted, fault := some ⟨r.cause, s.pc, r.info⟩ }

/-- The end of an instruction that started in `s`: the state its action leaves, or, where a primitive raised, the fault
taken in `s` itself, so that the instruction commits none of its writes (00_scope.md R11; 60_exceptions.md R152). -/
def State.commit (s : State) : Except Raise State → Host.Outcome State Fault Refusal
  | .ok t => .next t
  | .error r => .next (s.takeFault r)

/-! ### The status port -/

/-- The code of a run state on the status port (10_state.md R38). -/
def RunState.code : RunState → Nat
  | .running => 0
  | .halted => 1
  | .faulted => 2

/-- The code of a fatal condition (60_exceptions.md R150). -/
def FaultCause.code : FaultCause → Nat
  | .addressOutOfRange => 1
  | .invalidRegister => 2
  | .unsupportedOperation => 3
  | .uninitializedRegister => 4

/-- What the host reads on the status port (10_state.md R40): the run state's code, and the fault record as (cause code,
fault_pc, info). -/
def State.status (s : State) : Nat × Option (Nat × Nat × Int) :=
  (s.run.code, s.fault.map fun f => (f.cause.code, f.faultPc.toNat, f.info))

end Sys2Proof.Machine
end

