-- ==== Sys2Proof/Machine/Flags.lean ====
section
/-! DEFINITION. The flags register FL: the places of its bits and the flags that a comparison computes. -/

namespace Sys2Proof.Machine

/-- FL with only E (bit 0) set (10_state.md R30). -/
def flagsEqual : BitVec 3 := 0b001

/-- FL with only G (bit 1) set (10_state.md R30). -/
def flagsGreater : BitVec 3 := 0b010

/-- FL with only L (bit 2) set (10_state.md R30). -/
def flagsLess : BitVec 3 := 0b100

/-- The flag vector of a comparison in the unsigned integer order (41_alu.md R104, R105). -/
def compareFlags (va vb : Byte) : BitVec 3 :=
  if va.toNat = vb.toNat then flagsEqual
  else if va.toNat > vb.toNat then flagsGreater
  else flagsLess

/-- The whole FL that a flag vector makes: bits 7:3 are 0 (10_state.md R30, decision D7). -/
def flOfFlags (f : BitVec 3) : Byte :=
  f.setWidth 8

/-- E, bit 0 of FL (10_state.md R30), the only bit that an instruction reads (R32). -/
def State.equalFlag (s : State) : Bool :=
  s.fl.getLsbD 0

/-- G, bit 1 of FL (10_state.md R30). -/
def State.greaterFlag (s : State) : Bool :=
  s.fl.getLsbD 1

/-- L, bit 2 of FL (10_state.md R30). -/
def State.lessFlag (s : State) : Bool :=
  s.fl.getLsbD 2

end Sys2Proof.Machine
end

