-- ==== Sys2Proof/Machine/Operands.lean ====
section
/-! DEFINITION. The two kinds of operand byte (30_encoding.md R72). An immediate is the byte itself and needs no operation. -/

namespace Sys2Proof.Machine

/-- RegIndex(b): the register that an operand byte names, or InvalidRegister(b) above 7 (00_scope.md R9). The byte is not
masked to 3 bits (30_encoding.md R72). -/
def regIndex (b : Byte) : Except Raise (Fin 8) :=
  if h : b.toNat < 8 then .ok ⟨b.toNat, h⟩ else .error ⟨.invalidRegister, b.toNat⟩

/-- The operand byte that names a register (30_encoding.md R72). -/
def regOperand (r : Fin 8) : Byte :=
  BitVec.ofNat 8 r.val

/-- A register operand read for its value: RegIndex, then x[r]. -/
def State.readOperand (s : State) (b : Byte) : Except Raise Byte := do
  let r ← regIndex b
  s.readReg r

end Sys2Proof.Machine
end

