-- ==== Sys2Proof/Machine/Alu.lean ====
section
/-! DEFINITION. The ALU (41_alu.md R100, R101) and its three instructions ADD, MUL and CMP. -/

namespace Sys2Proof.Machine

/-- The ALU's operation select (41_alu.md R100, decision D26): 2 bits, internal to the block. -/
abbrev AluKind := BitVec 2

/-- 00 = ADD. -/
def aluAdd : AluKind := 0b00

/-- 01 = MUL. -/
def aluMul : AluKind := 0b01

/-- 10 = CMP. -/
def aluCmp : AluKind := 0b10

/-- The ALU's outputs: a result with its write enable, or a flag vector with its write enable (41_alu.md R100). -/
inductive AluOutput where
  /-- An 8-bit result to write; no flag is written. -/
  | result (v : Byte)
  /-- A 3-bit flag vector to write; no result is written. -/
  | flags (f : BitVec 3)
  deriving DecidableEq, Repr

/-- The ALU (41_alu.md R100, R105): the exact integer result kept modulo 256, or the flags of the unsigned order. A kind
outside the closed set raises UnsupportedOperation(kind) (R101). -/
def alu (kind : AluKind) (va vb : Byte) : Except Raise AluOutput :=
  if kind = aluAdd then .ok (.result (BitVec.ofNat 8 (va.toNat + vb.toNat)))
  else if kind = aluMul then .ok (.result (BitVec.ofNat 8 (va.toNat * vb.toNat)))
  else if kind = aluCmp then .ok (.flags (compareFlags va vb))
  else .error ⟨.unsupportedOperation, kind.toNat⟩

/-- Write the ALU's output: a result into register A, a flag vector into the whole of FL (41_alu.md R102 to R104). -/
def State.writeAluOutput (s : State) (a : Fin 8) : AluOutput → State
  | .result v => s.writeReg a v
  | .flags f => s.writeFl (flOfFlags f)

/-- The pseudocode that ADD, MUL and CMP share (41_alu.md R102, R103, R104): both register operands are decoded, then both
registers are read, A first. -/
def aluAction (kind : AluKind) (op1 op2 : Byte) (s : State) : Except Raise State := do
  let a ← regIndex op1
  let b ← regIndex op2
  let va ← s.readReg a
  let vb ← s.readReg b
  let output ← alu kind va vb
  .ok ((s.writeAluOutput a output).advance 3)

/-- ADD a, b (41_alu.md R102). -/
def execAdd (op1 op2 : Byte) (s : State) : Host.Outcome State Fault Refusal :=
  s.commit (aluAction aluAdd op1 op2 s)

/-- MUL a, b (41_alu.md R103). -/
def execMul (op1 op2 : Byte) (s : State) : Host.Outcome State Fault Refusal :=
  s.commit (aluAction aluMul op1 op2 s)

/-- CMP a, b (41_alu.md R104). -/
def execCmp (op1 op2 : Byte) (s : State) : Host.Outcome State Fault Refusal :=
  s.commit (aluAction aluCmp op1 op2 s)

end Sys2Proof.Machine
end

