-- ==== Sys2Proof/Machine/Control.lean ====
section
/-! DEFINITION. HLT, JMP, JEQ, JNE, CALL and RET (44_control.md). -/

namespace Sys2Proof.Machine

/-- HLT (44_control.md R130): run <- Halted, pc <- 0. -/
def execHlt (s : State) : Host.Outcome State Fault Refusal :=
  s.commit (.ok (s.halt.jump 0))

/-- JMP r (44_control.md R131). -/
def execJmp (op1 : Byte) (s : State) : Host.Outcome State Fault Refusal :=
  s.commit do
    let target ← s.readOperand op1
    .ok (s.jump target)

/-- The pseudocode that JEQ and JNE share (44_control.md R132, R133): the register is read whether or not the branch is
taken (decision D17). -/
def branchAction (taken : Bool) (op1 : Byte) (s : State) : Except Raise State := do
  let target ← s.readOperand op1
  .ok (if taken then s.jump target else s.advance 2)

/-- JEQ r (44_control.md R132): taken when E is set. -/
def execJeq (op1 : Byte) (s : State) : Host.Outcome State Fault Refusal :=
  s.commit (branchAction s.equalFlag op1 s)

/-- JNE r (44_control.md R133): taken when E is clear. -/
def execJne (op1 : Byte) (s : State) : Host.Outcome State Fault Refusal :=
  s.commit (branchAction (!s.equalFlag) op1 s)

/-- CALL r (44_control.md R135): the return address is checked after SPDec and before the write, and the target is read
after the push, so CALL R7 jumps to the new SP (decision D11). -/
def execCall (op1 : Byte) (s : State) : Host.Outcome State Fault Refusal :=
  s.commit do
    let r ← regIndex op1
    let ret := s.pc.toNat + 2
    let s1 ← s.spDec
    if ret > 255 then .error ⟨.addressOutOfRange, ret⟩
    else
      let sp ← s1.readReg spIndex
      let s2 ← s1.memWrite sp.toNat (BitVec.ofNat 8 ret)
      let target ← s2.readReg r
      .ok (s2.jump target)

/-- RET (44_control.md R136): the popped byte becomes the pc. -/
def execRet (s : State) : Host.Outcome State Fault Refusal :=
  s.commit do
    let sp ← s.readReg spIndex
    let v ← s.memRead sp.toNat
    let s1 ← s.spInc
    .ok (s1.jump v)

end Sys2Proof.Machine
end

