-- ==== Sys2Proof/Config.lean ====
section
/-! DEFINITION. The implementation parameters that the spec leaves to a model as arguments (00_scope.md R6, R7).
The other parameters of R6 (sizes, widths, reset values) are fixed by the spec and stand in the types and in `State.reset`.
The values this row's machine takes, `Config.default`, stand in Decode.lean; what R7 asks of them, `Config.wf`, in WellFormed.lean. -/

namespace Sys2Proof

/-- The open parameters. They are configuration, not state (10_state.md R44), and no step changes them. -/
structure Config where
  /-- ADD_OPCODE: the byte that decodes as ADD, or none (30_encoding.md R75). -/
  addOpcode : Option Byte
  /-- JNE_OPCODE: the byte that decodes as JNE, or none (30_encoding.md R76). -/
  jneOpcode : Option Byte
  /-- TRACE_ENABLED: whether each step emits a trace record (40_cycle.md R97). -/
  traceEnabled : Bool
  deriving DecidableEq, Repr

end Sys2Proof
end

