-- ==== Sys2Proof/Syntax.lean ====
section
/-! DEFINITION. The instructions, one constructor per row of spec/opcode_table.json, and the rows of the opcode map. -/

namespace Sys2Proof

/-- The instructions (30_encoding.md R71, R73). A register operand is the WHOLE operand byte, 0..255: the register file
checks it when the instruction runs and raises InvalidRegister above 7 (30_encoding.md R72), so it is no `Fin 8` here. -/
inductive Instr where
  /-- HLT (44_control.md R130). -/
  | hlt
  /-- LDI r, i (42_load_and_output.md R110). -/
  | ldi (r i : Byte)
  /-- PRN r (42_load_and_output.md R111). -/
  | prn (r : Byte)
  /-- ADD a, b (41_alu.md R102). -/
  | add (a b : Byte)
  /-- MUL a, b (41_alu.md R103). -/
  | mul (a b : Byte)
  /-- PUSH r (43_stack.md R121). -/
  | push (r : Byte)
  /-- POP r (43_stack.md R122). -/
  | pop (r : Byte)
  /-- CALL r (44_control.md R135). -/
  | call (r : Byte)
  /-- RET (44_control.md R136). -/
  | ret
  /-- CMP a, b (41_alu.md R104). -/
  | cmp (a b : Byte)
  /-- JMP r (44_control.md R131). -/
  | jmp (r : Byte)
  /-- JEQ r (44_control.md R132). -/
  | jeq (r : Byte)
  /-- JNE r (44_control.md R133). -/
  | jne (r : Byte)
  /-- A byte that no row of the opcode map matches, with that byte (40_cycle.md R96; 30_encoding.md R77). -/
  | unrecognized (opcode : Byte)
  deriving DecidableEq, Repr

/-- The rows of the opcode map (30_encoding.md R73), its last row being "any other byte". -/
inductive Row where
  | hlt | ldi | prn | add | mul | push | pop | call | ret | cmp | jmp | jeq | jne
  | unrecognized
  deriving DecidableEq, Repr

end Sys2Proof
end

