-- ==== Sys2Proof/Decode.lean ====
section
/-! DEFINITION. The opcode map, the decoder (total on any bytes, refusing by name) and the encoder. -/

namespace Sys2Proof

/-- The parameter values of this row's machine: ADD_OPCODE = 0xA0 and JNE_OPCODE = 0x56 are the spec's defaults
(30_encoding.md R75, R76; log entry 4). For TRACE_ENABLED the spec names no default: DESIGN CHOICE true (log entry 5). -/
def Config.default : Config where
  addOpcode := some 0xA0
  jneOpcode := some 0x56
  traceEnabled := true

/-- The opcode byte of a row (30_encoding.md R73); none for a row that is absent under the parameters (R75, R76)
and for the last row, which has no byte of its own. -/
def opcodeByte (c : Config) : Row → Option Byte
  | .hlt => some 0x01
  | .ldi => some 0x82
  | .prn => some 0x47
  | .add => c.addOpcode
  | .mul => some 0xA2
  | .push => some 0x45
  | .pop => some 0x46
  | .call => some 0x50
  | .ret => some 0x11
  | .cmp => some 0xA7
  | .jmp => some 0x54
  | .jeq => some 0x55
  | .jne => c.jneOpcode
  | .unrecognized => none

/-- The rows that carry an opcode byte, in the table's order (30_encoding.md R73). -/
def opcodeRows : List Row :=
  [.hlt, .ldi, .prn, .add, .mul, .push, .pop, .call, .ret, .cmp, .jmp, .jeq, .jne]

/-- Decoding compares the whole opcode byte with the rows; a byte that matches none is unrecognized
(30_encoding.md R74, R77). -/
def rowOf (c : Config) (ir : Byte) : Row :=
  (opcodeRows.find? fun row => opcodeByte c row == some ir).getD .unrecognized

/-- The number of operand bytes of a row (30_encoding.md R73): 0, 1 or 2. -/
def operandCount : Row → Nat
  | .hlt | .ret | .unrecognized => 0
  | .prn | .push | .pop | .call | .jmp | .jeq | .jne => 1
  | .ldi | .add | .mul | .cmp => 2

/-- The instruction of a row with its opcode byte and its operand bytes in the order of 30_encoding.md R71; a row of
fewer operands uses only the first ones. -/
def instrOf (row : Row) (ir op1 op2 : Byte) : Instr :=
  match row with
  | .hlt => .hlt
  | .ldi => .ldi op1 op2
  | .prn => .prn op1
  | .add => .add op1 op2
  | .mul => .mul op1 op2
  | .push => .push op1
  | .pop => .pop op1
  | .call => .call op1
  | .ret => .ret
  | .cmp => .cmp op1 op2
  | .jmp => .jmp op1
  | .jeq => .jeq op1
  | .jne => .jne op1
  | .unrecognized => .unrecognized ir

/-- Why a list of bytes is no instruction. Every opcode byte has a meaning (30_encoding.md R81), so only a list that ends
too early is refused. -/
inductive DecodeError where
  /-- The list is empty. -/
  | noOpcode
  /-- The first operand byte is missing. -/
  | noFirstOperand
  /-- The second operand byte is missing. -/
  | noSecondOperand
  deriving DecidableEq, Repr

/-- Split off `n` operand bytes; an operand that is not there is given as 0 and used by no row of that count. -/
def takeOperands : Nat → List Byte → Except DecodeError (Byte × Byte × List Byte)
  | 0, rest => .ok (0, 0, rest)
  | 1, op1 :: rest => .ok (op1, 0, rest)
  | _ + 2, op1 :: op2 :: rest => .ok (op1, op2, rest)
  | _ + 2, [_] => .error .noSecondOperand
  | _ + 1, [] => .error .noFirstOperand

/-- The decoder: the instruction at the head of a list of bytes, and the bytes after it (30_encoding.md R70, R74, R79). -/
def decodeWith (c : Config) : List Byte → Except DecodeError (Instr × List Byte)
  | [] => .error .noOpcode
  | ir :: rest =>
    match takeOperands (operandCount (rowOf c ir)) rest with
    | .ok (op1, op2, rest') => .ok (instrOf (rowOf c ir) ir op1 op2, rest')
    | .error e => .error e

/-- The decoder under this machine's parameters. -/
def decode (bytes : List Byte) : Except DecodeError (Instr × List Byte) :=
  decodeWith Config.default bytes

/-- The row an instruction belongs to. -/
def Instr.row : Instr → Row
  | .hlt => .hlt
  | .ldi _ _ => .ldi
  | .prn _ => .prn
  | .add _ _ => .add
  | .mul _ _ => .mul
  | .push _ => .push
  | .pop _ => .pop
  | .call _ => .call
  | .ret => .ret
  | .cmp _ _ => .cmp
  | .jmp _ => .jmp
  | .jeq _ => .jeq
  | .jne _ => .jne
  | .unrecognized _ => .unrecognized

/-- The operand bytes of an instruction, in the order of 30_encoding.md R71. -/
def Instr.operandBytes : Instr → List Byte
  | .ldi r i => [r, i]
  | .add a b | .mul a b | .cmp a b => [a, b]
  | .prn r | .push r | .pop r | .call r | .jmp r | .jeq r | .jne r => [r]
  | .hlt | .ret | .unrecognized _ => []

/-- The length in bytes, 1 + operand count (30_encoding.md R79). -/
def Instr.length (i : Instr) : Nat :=
  1 + operandCount i.row

/-- The encoder: the bytes of a well-formed instruction, opcode first (30_encoding.md R70, R71). An instruction that the
parameters give no opcode has no bytes. -/
def encodeWith (c : Config) : Instr → List Byte
  | .unrecognized b => [b]
  | i =>
    match opcodeByte c i.row with
    | some opcode => opcode :: i.operandBytes
    | none => []

/-- The encoder under this machine's parameters. -/
def encode (i : Instr) : List Byte :=
  encodeWith Config.default i

/-- The bytes of a table word of `nbits` bits, the first byte in bits 7..0, laid out to the longest instruction with the
bits above `nbits` zero (log entry 12). -/
def tableWordBytes (nbits w : Nat) : List Byte :=
  let v := w % 2 ^ nbits
  [BitVec.ofNat 8 v, BitVec.ofNat 8 (v / 256), BitVec.ofNat 8 (v / 65536)]

/-- The instruction the decoder reads from a table word. -/
def decodeTableWord (nbits w : Nat) : Option Instr :=
  match decode (tableWordBytes nbits w) with
  | .ok (i, _) => some i
  | .error _ => none

end Sys2Proof
end

