-- ==== Sys2Proof/Machine/Cycle.lean ====
section
/-! DEFINITION. What the step does around an instruction (40_cycle.md): the trace record, the fetch of the opcode and of
its operands, and the unrecognized opcode. -/

namespace Sys2Proof.Machine

/-- The byte at an address for the trace, `none` (absent) above 255; never a fault (40_cycle.md R97). -/
def State.traceByte (s : State) (a : Nat) : Option Byte :=
  if a ≤ 255 then some (s.byteAt a) else none

/-- The trace record of the step about to be taken (40_cycle.md R97). -/
def State.traceRecord (s : State) : TraceRecord where
  pc := s.pc
  fl := s.fl
  b0 := s.traceByte s.pc.toNat
  b1 := s.traceByte (s.pc.toNat + 1)
  b2 := s.traceByte (s.pc.toNat + 2)

/-- One trace record a step when TRACE_ENABLED, before the fetch (40_cycle.md R97). -/
def State.emitTrace (c : Config) (s : State) : State :=
  if c.traceEnabled then { s with trace := s.trace ++ [s.traceRecord] } else s

/-- Operand fetch (40_cycle.md R93): the bytes at pc + 1 and pc + 2, as many as the operand count says and no more. An operand
that is not read is given as 0 and used by no row of that count. -/
def State.fetchOperands (s : State) : Nat → Except Raise (Byte × Byte)
  | 0 => .ok (0, 0)
  | 1 => do
    let op1 ← s.memRead (s.pc.toNat + 1)
    .ok (op1, 0)
  | _ + 2 => do
    let op1 ← s.memRead (s.pc.toNat + 1)
    let op2 ← s.memRead (s.pc.toNat + 2)
    .ok (op1, op2)

/-- Fetch, decode and operand fetch (40_cycle.md R91, R92, R93). `ir` is the IR, which is transient (10_state.md R35). -/
def State.fetchInstr (c : Config) (s : State) : Except Raise Instr := do
  let ir ← s.memRead s.pc.toNat
  let (op1, op2) ← s.fetchOperands (operandCount (rowOf c ir))
  .ok (instrOf (rowOf c ir) ir op1 op2)

/-- The bytes of memory from an address on that an instruction there may use: three, or fewer at the end of memory. -/
def State.codeBytes (s : State) (a : Nat) : List Byte :=
  ([a, a + 1, a + 2].filter (fun x => decide (x ≤ 255))).map s.byteAt

/-- An unrecognized opcode (40_cycle.md R96): a diag event with the address and the byte, then pc <- pc + 1. -/
def execUnrecognized (byte : Byte) (s : State) : Host.Outcome State Fault Refusal :=
  s.commit (.ok ((s.diagnose (.unrecognizedOpcode s.pc byte)).advance 1))

end Sys2Proof.Machine
end

