-- ==== Sys2Proof/Machine/LoadOutput.lean ====
section
/-! DEFINITION. LDI and PRN (42_load_and_output.md). -/

namespace Sys2Proof.Machine

/-- LDI r, i (42_load_and_output.md R110): the immediate is stored unchanged. -/
def execLdi (op1 op2 : Byte) (s : State) : Host.Outcome State Fault Refusal :=
  s.commit do
    let r ← regIndex op1
    .ok ((s.writeReg r op2).advance 3)

/-- PRN r (42_load_and_output.md R111): one byte on the out port. -/
def execPrn (op1 : Byte) (s : State) : Host.Outcome State Fault Refusal :=
  s.commit do
    let v ← s.readOperand op1
    .ok ((s.emit v).advance 2)

end Sys2Proof.Machine
end

