-- ==== Sys2Proof/Machine/Stack.lean ====
section
/-! DEFINITION. PUSH and POP (43_stack.md). -/

namespace Sys2Proof.Machine

/-- PUSH r (43_stack.md R121): the register is read after the decrement, so PUSH R7 stores the new SP (decision D11). -/
def execPush (op1 : Byte) (s : State) : Host.Outcome State Fault Refusal :=
  s.commit do
    let r ← regIndex op1
    let s1 ← s.spDec
    let v ← s1.readReg r
    let sp ← s1.readReg spIndex
    let s2 ← s1.memWrite sp.toNat v
    .ok (s2.advance 2)

/-- POP r (43_stack.md R122): the increment reads SP after the register is written, so POP R7 leaves the popped byte plus
one in SP (decision D11). -/
def execPop (op1 : Byte) (s : State) : Host.Outcome State Fault Refusal :=
  s.commit do
    let r ← regIndex op1
    let sp ← s.readReg spIndex
    let v ← s.memRead sp.toNat
    let s1 ← (s.writeReg r v).spInc
    .ok (s1.advance 2)

end Sys2Proof.Machine
end

