-- ==== Sys2Proof/Machine/Engine.lean ====
section
/-! DEFINITION. The Execution Engine's step under given parameters (40_cycle.md R89), and the placing of bytes in memory from
outside a run. -/

namespace Sys2Proof.Machine

/-- One step (40_cycle.md R89): only in Running (R90); the trace record, the fetch and the instruction, a fetch that raises
being taken as a fatal fault (60_exceptions.md R152). -/
def stepWith (c : Config) (s : State) : Host.Outcome State Fault Refusal :=
  match s.run with
  | .halted => .fault .halted
  | .faulted => .fault .faulted
  | .running =>
    match (s.emitTrace c).fetchInstr c with
    | .ok i => exec i (s.emitTrace c)
    | .error r => .next ((s.emitTrace c).takeFault r)

/-- Put bytes at ascending addresses, leaving out those above 255. -/
def State.putBytes (s : State) : Nat → List Byte → State
  | _, [] => s
  | a, v :: rest =>
    State.putBytes (if a ≤ 255 then s.setByte a v else s) (a + 1) rest

end Sys2Proof.Machine
end

