-- ==== Sys2Proof/Machine/LoadPort.lean ====
section
/-! DEFINITION. The load port (20_memory.md R64) and the launch state (70_reset_and_hazards.md R172). -/

namespace Sys2Proof.Machine

/-- One byte write through the load port; it obeys the rule of MemWrite (20_memory.md R53, R64). -/
def State.loadPortWrite (s : State) (addr : Nat) (v : Byte) : Except Raise State :=
  s.memWrite addr v

/-- The Loader's writes: one byte at the next sequential address (20_memory.md R58, R64). -/
def State.loadBytes (s : State) : Nat → List Byte → Except Raise State
  | _, [] => .ok s
  | addr, v :: rest => do
    let s1 ← s.loadPortWrite addr v
    s1.loadBytes (addr + 1) rest

/-- The launch state: the reset state with the image at addresses 0.. (70_reset_and_hazards.md R172). An image of more than
256 bytes would need a write at address 256, and its launch is refused (20_memory.md R64, decision D21). -/
def State.launch (image : List Byte) : Host.Outcome State Fault Refusal :=
  match State.reset.loadBytes 0 image with
  | .ok s => .next s
  | .error _ => .refused .launchImageTooLong

end Sys2Proof.Machine
end

