-- ==== Sys2Proof/Machine/Step.lean ====
section
/-! DEFINITION. The step of this row's machine, and the placing of an instruction where the next step fetches it. -/

namespace Sys2Proof.Machine

/-- The step under `Config.default` (40_cycle.md R89). -/
def step (s : State) : Host.Outcome State Fault Refusal :=
  stepWith Config.default s

/-- The state with a table word stored where the next step fetches: at pc, pc + 1 and pc + 2 (log entry 11). -/
def State.withFetchWord (s : State) (nbits w : Nat) : State :=
  s.putBytes s.pc.toNat (tableWordBytes nbits w)

end Sys2Proof.Machine
end

