-- ==== Sys2Proof/WellFormed.lean ====
section
/-! DEFINITION. What is asked of the parameters and of an instruction as syntax. Both are checked against the opcode map
of Decode.lean, so that the opcode bytes stand in one place. -/

namespace Sys2Proof

/-- The opcode bytes that no parameter moves (30_encoding.md R73). -/
def fixedOpcodes : List Byte :=
  opcodeRows.filterMap fun row =>
    if row = .add ∨ row = .jne then none else opcodeByte Config.default row

/-- No two rows carry one byte: each parameter that is not none differs from the fixed opcodes, and ADD_OPCODE from
JNE_OPCODE. It is what decoding needs to be unambiguous (30_encoding.md R74), and the part of `Config.wf` that does not
concern the defaults' bytes. -/
def Config.opcodesDistinct (c : Config) : Bool :=
  fixedOpcodes.all (fun b => c.addOpcode != some b && c.jneOpcode != some b) &&
    (c.addOpcode.isNone || c.addOpcode != c.jneOpcode)

/-- What 00_scope.md R7 requires of the parameters: each one that is not none differs from every other opcode of
30_encoding.md R73, the table's 0xA0 and 0x56 among them, and ADD_OPCODE differs from JNE_OPCODE. ADD_OPCODE may be 0xA0 or
none there, and JNE_OPCODE 0x56 or none, so neither byte is ever another instruction (R75, R76). -/
def Config.wf (c : Config) : Bool :=
  c.opcodesDistinct && c.addOpcode != Config.default.jneOpcode && c.jneOpcode != Config.default.addOpcode

/-- A well-formed instruction under the parameters: ADD and JNE exist only where their parameter is not none
(30_encoding.md R75, R76), and an unrecognized byte is one that no row matches (R77). Every operand byte is admitted: a
register operand above 7 is an instruction that raises InvalidRegister (R72). -/
def Instr.wf (c : Config) : Instr → Bool
  | .add _ _ => c.addOpcode.isSome
  | .jne _ => c.jneOpcode.isSome
  | .unrecognized b => rowOf c b == .unrecognized
  | .hlt | .ldi _ _ | .prn _ | .mul _ _ | .push _ | .pop _ | .call _ | .ret | .cmp _ _ | .jmp _ | .jeq _ => true

end Sys2Proof
end

