-- ==== Sys2Proof/Safety.lean ====
section
/-! DEFINITION. The terms that claims use: the invariant of the state, runs and how they end, and what "unchanged" means. -/

namespace Sys2Proof.Machine

/-- The invariant of every state that a run can reach: memory in canonical form; the pc in 0..256 (10_state.md R26); SP
written (R24); FL zero or with exactly one of E, G and L set and bits 7:3 zero (R30, R33, R34); and a fault record exactly
in Faulted (R39). -/
def State.inv (s : State) : Bool :=
  s.mem.wf && decide (s.pc.toNat ≤ 256) && s.isWritten spIndex &&
    decide (s.fl = 0b000 ∨ s.fl = 0b001 ∨ s.fl = 0b010 ∨ s.fl = 0b100) &&
    decide (s.run = .faulted ↔ s.fault ≠ none)

/-- `k` steps one after another, each of which answers a next state. -/
def Steps (c : Config) : Nat → State → State → Prop
  | 0, s, t => s = t
  | k + 1, s, t => ∃ u, stepWith c s = .next u ∧ Steps c k u t

/-- A run's normal end (40_cycle.md R99): Halted. -/
def EndsHalted (c : Config) (s : State) : Prop :=
  ∃ k t, Steps c k s t ∧ t.run = .halted

/-- A run's end in a fatal fault (40_cycle.md R99), which is no normal end. -/
def EndsFaulted (c : Config) (s : State) : Prop :=
  ∃ k t, Steps c k s t ∧ t.run = .faulted

/-- A run without end (40_cycle.md R99). -/
def NeverEnds (c : Config) (s : State) : Prop :=
  ∀ k, ∃ t, Steps c k s t ∧ t.run = .running

/-- Every register but those of `except` holds its value and its written bit. -/
def SameRegsExcept (except : List (Fin 8)) (s t : State) : Prop :=
  ∀ i, i ∉ except → t.reg i = s.reg i ∧ t.isWritten i = s.isWritten i

/-- Every byte of memory reads as before. -/
def SameMemory (s t : State) : Prop :=
  ∀ a, t.byteAt a = s.byteAt a

/-- Every byte of memory but the one at `addr` reads as before. -/
def SameMemoryExcept (addr : Nat) (s t : State) : Prop :=
  ∀ a, a ≠ addr → t.byteAt a = s.byteAt a

/-- The run state and the fault record are as before. -/
def SameRun (s t : State) : Prop :=
  t.run = s.run ∧ t.fault = s.fault

/-- The three port logs are as before. -/
def SamePorts (s t : State) : Prop :=
  t.out = s.out ∧ t.diag = s.diag ∧ t.trace = s.trace

/-- The instruction that started in `s` took a fatal fault: Faulted, the pc unchanged, the record with that pc
(60_exceptions.md R151, R152). -/
def TookFault (s t : State) : Prop :=
  t.run = .faulted ∧ t.pc = s.pc ∧ ∃ cause info, t.fault = some ⟨cause, s.pc, info⟩

/-- The faults of an instruction that reads one register operand, in their order (60_exceptions.md R153): a byte above 7,
then an unwritten register. -/
def OneOperandFaults (i : Instr) (op1 : Byte) (s : State) : Prop :=
  (7 < op1.toNat → exec i s = .next (s.takeFault ⟨.invalidRegister, op1.toNat⟩)) ∧
  (∀ r, op1 = regOperand r → s.isWritten r = false →
    exec i s = .next (s.takeFault ⟨.uninitializedRegister, r.val⟩))

/-- The faults of an instruction that reads two register operands, in their order (60_exceptions.md R153): the first byte
above 7, then the second, then register A unwritten, then register B. -/
def TwoOperandFaults (i : Instr) (op1 op2 : Byte) (s : State) : Prop :=
  (7 < op1.toNat → exec i s = .next (s.takeFault ⟨.invalidRegister, op1.toNat⟩)) ∧
  (op1.toNat ≤ 7 → 7 < op2.toNat → exec i s = .next (s.takeFault ⟨.invalidRegister, op2.toNat⟩)) ∧
  (∀ a b, op1 = regOperand a → op2 = regOperand b → s.isWritten a = false →
    exec i s = .next (s.takeFault ⟨.uninitializedRegister, a.val⟩)) ∧
  (∀ a b, op1 = regOperand a → op2 = regOperand b → s.isWritten a = true → s.isWritten b = false →
    exec i s = .next (s.takeFault ⟨.uninitializedRegister, b.val⟩))

/-- The state without its trace log, which no rule reads (10_state.md R43). -/
def State.eraseTrace (s : State) : State :=
  { s with trace := [] }

end Sys2Proof.Machine
end

