-- ==== Sys2Proof/Certificates/Slice0/Obligations.lean ====
section
/-! DEFINITION. The statements for the provers. Each docstring names the rules of spec/ the statement formalises; where a
rule rests on a decision of 92_eei_decisions.md, or the statement on a choice of this model, the docstring says so. -/

open Sys2Proof Sys2Proof.Machine

/-! ### Reset, fetch and step -/

/-- The state after reset (70_reset_and_hazards.md section 1). FL = 0 is the spec's decision D6 and "R0..R6 unwritten" its
decision D5; the byte an unwritten register holds (log entry 1) is not stated. -/
def Obligations.ResetStateHoldsTheSpecifiedValues : Prop :=
  (∀ a, State.reset.byteAt a = 0x00) ∧
  (∀ i, State.reset.isWritten i = decide (i = spIndex)) ∧
  State.reset.reg spIndex = 0xF4 ∧ State.reset.pc = 0 ∧ State.reset.fl = 0x00 ∧
  State.reset.run = .running ∧ State.reset.fault = none ∧ State.reset.out = [] ∧ State.reset.diag = []

/-- The reset state meets the invariant that `StepKeepsTheInvariant` says every step keeps. -/
def Obligations.ResetStateMeetsTheInvariant : Prop :=
  State.reset.inv = true

/-- Bytes written out from the opcode map and the formats (30_encoding.md sections 1 and 3) decode to their instructions; the
bytes of ADD and JNE are the spec's decisions D9 and D10. -/
def Obligations.WrittenOutBytesDecode : Prop :=
  decode [0b00000001] = .ok (.hlt, []) ∧
  decode [0b10000010, 0b00000011, 0b11111110] = .ok (.ldi 3 254, []) ∧
  decode [0b01000111, 0b00000101] = .ok (.prn 5, []) ∧
  decode [0b10100000, 0b00000001, 0b00000010] = .ok (.add 1 2, []) ∧
  decode [0b10100010, 0b00000111, 0b00000110] = .ok (.mul 7 6, []) ∧
  decode [0b01000101, 0b00000100] = .ok (.push 4, []) ∧
  decode [0b01000110, 0b00000010] = .ok (.pop 2, []) ∧
  decode [0b01010000, 0b00000001] = .ok (.call 1, []) ∧
  decode [0b00010001] = .ok (.ret, []) ∧
  decode [0b10100111, 0b00000000, 0b11111111] = .ok (.cmp 0 255, []) ∧
  decode [0b01010100, 0b00000011] = .ok (.jmp 3, []) ∧
  decode [0b01010101, 0b00000011] = .ok (.jeq 3, []) ∧
  decode [0b01010110, 0b00000011] = .ok (.jne 3, []) ∧
  decode [0b11111111, 0b00000001] = .ok (.unrecognized 255, [0b00000001])

/-- A step in Running whose bytes at pc decode to an instruction is that instruction run at that state, with the step's trace
record emitted first (40_cycle.md sections 1 and 2). The bytes are at most three, those at pc, pc + 1 and pc + 2 inside memory.
That `step` emits a record at all (the second clause) is the model's choice: `Config.default` takes TRACE_ENABLED = true, for
which the spec gives no default (log entry 5, DESIGN CHOICE); the first clause holds for either value. -/
def Obligations.StepRunsTheDecodedInstruction : Prop :=
  (∀ (c : Config) (s : State) (i : Instr) (rest : List Byte), s.run = .running →
    decodeWith c (s.codeBytes s.pc.toNat) = .ok (i, rest) → stepWith c s = exec i (s.emitTrace c)) ∧
  (∀ (s : State) (i : Instr) (rest : List Byte), s.run = .running →
    decode (s.codeBytes s.pc.toNat) = .ok (i, rest) →
    step s = exec i { s with trace := s.trace ++ [s.traceRecord] })

/-- 40_cycle.md R90: a step happens exactly in Running; applied to a Halted or a Faulted state, the step function returns no
further state. -/
def Obligations.OnlyARunningMachineSteps : Prop :=
  ∀ (c : Config) (s : State),
    (s.run = .running → ∃ t, stepWith c s = .next t) ∧
    (s.run = .halted ∨ s.run = .faulted → ∀ t, stepWith c s ≠ .next t)

/-- 40_cycle.md section 1 (decisions D3, D4): an opcode fetch at 256 and an operand fetch at 256 are fatal with info 256, and
an instruction whose bytes all lie inside memory is run, whatever lies beyond them. -/
def Obligations.FetchBeyondMemoryTakesAddressOutOfRange : Prop :=
  ∀ (c : Config) (s : State), s.run = .running →
    (s.pc.toNat = 256 → stepWith c s = .next ((s.emitTrace c).takeFault ⟨.addressOutOfRange, 256⟩)) ∧
    (s.pc.toNat ≤ 255 → 255 < s.pc.toNat + operandCount (rowOf c (s.byteAt s.pc.toNat)) →
      stepWith c s = .next ((s.emitTrace c).takeFault ⟨.addressOutOfRange, 256⟩)) ∧
    (s.pc.toNat + operandCount (rowOf c (s.byteAt s.pc.toNat)) ≤ 255 →
      stepWith c s =
        exec (instrOf (rowOf c (s.byteAt s.pc.toNat)) (s.byteAt s.pc.toNat) (s.byteAt (s.pc.toNat + 1))
          (s.byteAt (s.pc.toNat + 2))) (s.emitTrace c))

/-! ### What each instruction does

Each statement has the encoding, the completed instruction with all it changes and all it leaves, and the faults in their
order. "An instruction stands at an address 0..255" is a premise where the advance of the pc is stated. -/

/-- HLT (44_control.md R130). -/
def Obligations.HltHaltsAndClearsThePc : Prop :=
  (∀ rest, decode (0b00000001 :: rest) = .ok (.hlt, rest)) ∧
  (∀ s : State, ∃ t, exec .hlt s = .next t ∧ t.run = .halted ∧ t.pc = 0 ∧
    SameRegsExcept [] s t ∧ SameMemory s t ∧ t.fl = s.fl ∧ t.fault = s.fault ∧ SamePorts s t ∧
    ∀ c u, stepWith c t ≠ .next u) ∧
  (∀ (i : Instr) (s t : State), exec i s = .next t → s.run ≠ .halted → t.run = .halted → i = .hlt)

/-- LDI r, i (42_load_and_output.md R110), its operand fetch beyond memory included. -/
def Obligations.LdiLoadsTheImmediate : Prop :=
  ∀ (op1 imm : Byte) (s : State),
    (∀ rest, decode (0b10000010 :: op1 :: imm :: rest) = .ok (.ldi op1 imm, rest)) ∧
    (∀ r, op1 = regOperand r → s.pc.toNat ≤ 255 →
      ∃ t, exec (.ldi op1 imm) s = .next t ∧ t.reg r = imm ∧ t.isWritten r = true ∧
        t.pc.toNat = s.pc.toNat + 3 ∧ SameRegsExcept [r] s t ∧ SameMemory s t ∧ t.fl = s.fl ∧ SameRun s t ∧
        SamePorts s t) ∧
    (7 < op1.toNat → exec (.ldi op1 imm) s = .next (s.takeFault ⟨.invalidRegister, op1.toNat⟩)) ∧
    (s.run = .running → s.byteAt s.pc.toNat = 0b10000010 → s.pc.toNat = 254 ∨ s.pc.toNat = 255 →
      step s = .next ((s.emitTrace Config.default).takeFault ⟨.addressOutOfRange, 256⟩))

/-- PRN r (42_load_and_output.md section on PRN). That the host prints the byte in decimal (decision D19) is the host's. -/
def Obligations.PrnEmitsTheRegister : Prop :=
  ∀ (op1 : Byte) (s : State),
    (∀ rest, decode (0b01000111 :: op1 :: rest) = .ok (.prn op1, rest)) ∧
    (∀ r, op1 = regOperand r → s.isWritten r = true → s.pc.toNat ≤ 255 →
      ∃ t, exec (.prn op1) s = .next t ∧ t.out = s.out ++ [s.reg r] ∧ t.pc.toNat = s.pc.toNat + 2 ∧
        SameRegsExcept [] s t ∧ SameMemory s t ∧ t.fl = s.fl ∧ SameRun s t ∧ t.diag = s.diag ∧ t.trace = s.trace) ∧
    OneOperandFaults (.prn op1) op1 s

/-- ADD a, b (41_alu.md section 2). The opcode byte is the spec's decision D9, and a read of an unwritten register faults by
its decision D5. -/
def Obligations.AddWritesTheSumModulo256 : Prop :=
  ∀ (op1 op2 : Byte) (s : State),
    (∀ rest, decode (0b10100000 :: op1 :: op2 :: rest) = .ok (.add op1 op2, rest)) ∧
    (∀ a b, op1 = regOperand a → op2 = regOperand b → s.isWritten a = true → s.isWritten b = true →
      s.pc.toNat ≤ 255 →
      ∃ t, exec (.add op1 op2) s = .next t ∧
        (t.reg a).toNat = ((s.reg a).toNat + (s.reg b).toNat) % 256 ∧ t.isWritten a = true ∧
        t.pc.toNat = s.pc.toNat + 3 ∧ SameRegsExcept [a] s t ∧ SameMemory s t ∧ t.fl = s.fl ∧ SameRun s t ∧
        SamePorts s t) ∧
    TwoOperandFaults (.add op1 op2) op1 op2 s

/-- MUL a, b (41_alu.md section 2). A read of an unwritten register faults by the spec's decision D5. -/
def Obligations.MulWritesTheProductModulo256 : Prop :=
  ∀ (op1 op2 : Byte) (s : State),
    (∀ rest, decode (0b10100010 :: op1 :: op2 :: rest) = .ok (.mul op1 op2, rest)) ∧
    (∀ a b, op1 = regOperand a → op2 = regOperand b → s.isWritten a = true → s.isWritten b = true →
      s.pc.toNat ≤ 255 →
      ∃ t, exec (.mul op1 op2) s = .next t ∧
        (t.reg a).toNat = ((s.reg a).toNat * (s.reg b).toNat) % 256 ∧ t.isWritten a = true ∧
        t.pc.toNat = s.pc.toNat + 3 ∧ SameRegsExcept [a] s t ∧ SameMemory s t ∧ t.fl = s.fl ∧ SameRun s t ∧
        SamePorts s t) ∧
    TwoOperandFaults (.mul op1 op2) op1 op2 s

/-- CMP a, b (41_alu.md section 2). Bits 7:3 of FL are 0 by the spec's decision D7. -/
def Obligations.CmpSetsExactlyOneFlag : Prop :=
  ∀ (op1 op2 : Byte) (s : State),
    (∀ rest, decode (0b10100111 :: op1 :: op2 :: rest) = .ok (.cmp op1 op2, rest)) ∧
    (∀ a b, op1 = regOperand a → op2 = regOperand b → s.isWritten a = true → s.isWritten b = true →
      s.pc.toNat ≤ 255 →
      ∃ t, exec (.cmp op1 op2) s = .next t ∧
        (t.equalFlag = true ↔ (s.reg a).toNat = (s.reg b).toNat) ∧
        (t.greaterFlag = true ↔ (s.reg b).toNat < (s.reg a).toNat) ∧
        (t.lessFlag = true ↔ (s.reg a).toNat < (s.reg b).toNat) ∧
        (t.fl = 0b00000001 ∨ t.fl = 0b00000010 ∨ t.fl = 0b00000100) ∧
        t.pc.toNat = s.pc.toNat + 3 ∧ SameRegsExcept [] s t ∧ SameMemory s t ∧ SameRun s t ∧ SamePorts s t) ∧
    TwoOperandFaults (.cmp op1 op2) op1 op2 s

/-- PUSH r (43_stack.md section 2). With r = 7 the decremented SP is stored (decision D11); SP at 0 faults (decision D12).
The canonical memory form of the byte read back and a written SP are the invariant's. -/
def Obligations.PushStoresBelowTheStackPointer : Prop :=
  ∀ (op1 : Byte) (s : State), s.isWritten spIndex = true → s.mem.wf = true →
    (∀ rest, decode (0b01000101 :: op1 :: rest) = .ok (.push op1, rest)) ∧
    (∀ r, op1 = regOperand r → s.isWritten r = true → 0 < (s.reg spIndex).toNat → s.pc.toNat ≤ 255 →
      ∃ t, exec (.push op1) s = .next t ∧ (t.reg spIndex).toNat = (s.reg spIndex).toNat - 1 ∧
        t.isWritten spIndex = true ∧
        t.byteAt ((s.reg spIndex).toNat - 1) = (if r = spIndex then t.reg spIndex else s.reg r) ∧
        t.pc.toNat = s.pc.toNat + 2 ∧ SameRegsExcept [spIndex] s t ∧
        SameMemoryExcept ((s.reg spIndex).toNat - 1) s t ∧ t.fl = s.fl ∧ SameRun s t ∧ SamePorts s t) ∧
    (7 < op1.toNat → exec (.push op1) s = .next (s.takeFault ⟨.invalidRegister, op1.toNat⟩)) ∧
    (op1.toNat ≤ 7 → (s.reg spIndex).toNat = 0 →
      exec (.push op1) s = .next (s.takeFault ⟨.addressOutOfRange, -1⟩)) ∧
    (∀ r, op1 = regOperand r → 0 < (s.reg spIndex).toNat → s.isWritten r = false →
      exec (.push op1) s = .next (s.takeFault ⟨.uninitializedRegister, r.val⟩))

/-- POP r (43_stack.md section 2). With r = 7 SP ends at the popped byte plus one (decision D11); an increment to 256 faults
(decision D12). A written SP is the invariant's. -/
def Obligations.PopLoadsFromTheStackPointer : Prop :=
  ∀ (op1 : Byte) (s : State), s.isWritten spIndex = true →
    (∀ rest, decode (0b01000110 :: op1 :: rest) = .ok (.pop op1, rest)) ∧
    (∀ r, op1 = regOperand r → r ≠ spIndex → (s.reg spIndex).toNat < 255 → s.pc.toNat ≤ 255 →
      ∃ t, exec (.pop op1) s = .next t ∧ t.reg r = s.byteAt (s.reg spIndex).toNat ∧ t.isWritten r = true ∧
        (t.reg spIndex).toNat = (s.reg spIndex).toNat + 1 ∧ t.isWritten spIndex = true ∧
        t.pc.toNat = s.pc.toNat + 2 ∧ SameRegsExcept [r, spIndex] s t ∧ SameMemory s t ∧ t.fl = s.fl ∧
        SameRun s t ∧ SamePorts s t) ∧
    (op1 = regOperand spIndex → (s.byteAt (s.reg spIndex).toNat).toNat < 255 → s.pc.toNat ≤ 255 →
      ∃ t, exec (.pop op1) s = .next t ∧
        (t.reg spIndex).toNat = (s.byteAt (s.reg spIndex).toNat).toNat + 1 ∧ t.isWritten spIndex = true ∧
        t.pc.toNat = s.pc.toNat + 2 ∧ SameRegsExcept [spIndex] s t ∧ SameMemory s t ∧ t.fl = s.fl ∧
        SameRun s t ∧ SamePorts s t) ∧
    (7 < op1.toNat → exec (.pop op1) s = .next (s.takeFault ⟨.invalidRegister, op1.toNat⟩)) ∧
    (op1.toNat < 7 → (s.reg spIndex).toNat = 255 →
      exec (.pop op1) s = .next (s.takeFault ⟨.addressOutOfRange, 256⟩)) ∧
    (op1.toNat = 7 → (s.byteAt (s.reg spIndex).toNat).toNat = 255 →
      exec (.pop op1) s = .next (s.takeFault ⟨.addressOutOfRange, 256⟩))

/-- CALL r (44_control.md section on CALL). With r = 7 the target is the decremented SP (decision D11); a return address of
256 faults (decision D13). The canonical memory form and a written SP are the invariant's. -/
def Obligations.CallPushesTheReturnAddress : Prop :=
  ∀ (op1 : Byte) (s : State), s.isWritten spIndex = true → s.mem.wf = true →
    (∀ rest, decode (0b01010000 :: op1 :: rest) = .ok (.call op1, rest)) ∧
    (∀ r, op1 = regOperand r → s.isWritten r = true → 0 < (s.reg spIndex).toNat → s.pc.toNat ≤ 253 →
      ∃ t, exec (.call op1) s = .next t ∧ (t.reg spIndex).toNat = (s.reg spIndex).toNat - 1 ∧
        t.isWritten spIndex = true ∧ (t.byteAt ((s.reg spIndex).toNat - 1)).toNat = s.pc.toNat + 2 ∧
        t.pc.toNat = (if r = spIndex then t.reg spIndex else s.reg r).toNat ∧ SameRegsExcept [spIndex] s t ∧
        SameMemoryExcept ((s.reg spIndex).toNat - 1) s t ∧ t.fl = s.fl ∧ SameRun s t ∧ SamePorts s t) ∧
    (7 < op1.toNat → exec (.call op1) s = .next (s.takeFault ⟨.invalidRegister, op1.toNat⟩)) ∧
    (op1.toNat ≤ 7 → (s.reg spIndex).toNat = 0 →
      exec (.call op1) s = .next (s.takeFault ⟨.addressOutOfRange, -1⟩)) ∧
    (op1.toNat ≤ 7 → 0 < (s.reg spIndex).toNat → s.pc.toNat = 254 →
      exec (.call op1) s = .next (s.takeFault ⟨.addressOutOfRange, 256⟩)) ∧
    (∀ r, op1 = regOperand r → 0 < (s.reg spIndex).toNat → s.pc.toNat ≤ 253 → s.isWritten r = false →
      exec (.call op1) s = .next (s.takeFault ⟨.uninitializedRegister, r.val⟩))

/-- RET (44_control.md section on RET). An increment of SP to 256 faults (decision D12). A written SP is the invariant's. -/
def Obligations.RetPopsThePc : Prop :=
  ∀ s : State, s.isWritten spIndex = true →
    (∀ rest, decode (0b00010001 :: rest) = .ok (.ret, rest)) ∧
    ((s.reg spIndex).toNat < 255 →
      ∃ t, exec .ret s = .next t ∧ t.pc.toNat = (s.byteAt (s.reg spIndex).toNat).toNat ∧
        (t.reg spIndex).toNat = (s.reg spIndex).toNat + 1 ∧ t.isWritten spIndex = true ∧
        SameRegsExcept [spIndex] s t ∧ SameMemory s t ∧ t.fl = s.fl ∧ SameRun s t ∧ SamePorts s t) ∧
    ((s.reg spIndex).toNat = 255 → exec .ret s = .next (s.takeFault ⟨.addressOutOfRange, 256⟩))

/-- JMP r (44_control.md section on JMP). A read of an unwritten register faults by the spec's decision D5. -/
def Obligations.JmpGoesToTheRegister : Prop :=
  ∀ (op1 : Byte) (s : State),
    (∀ rest, decode (0b01010100 :: op1 :: rest) = .ok (.jmp op1, rest)) ∧
    (∀ r, op1 = regOperand r → s.isWritten r = true →
      ∃ t, exec (.jmp op1) s = .next t ∧ t.pc.toNat = (s.reg r).toNat ∧
        SameRegsExcept [] s t ∧ SameMemory s t ∧ t.fl = s.fl ∧ SameRun s t ∧ SamePorts s t) ∧
    OneOperandFaults (.jmp op1) op1 s

/-- JEQ r (44_control.md section on JEQ): taken exactly when bit 0 of FL is 1. The register is read, and faults, also when
the branch is not taken (decision D17). -/
def Obligations.JeqBranchesWhenEqualIsSet : Prop :=
  ∀ (op1 : Byte) (s : State),
    (∀ rest, decode (0b01010101 :: op1 :: rest) = .ok (.jeq op1, rest)) ∧
    (∀ r, op1 = regOperand r → s.isWritten r = true → s.pc.toNat ≤ 255 →
      ∃ t, exec (.jeq op1) s = .next t ∧
        t.pc.toNat = (if s.fl.getLsbD 0 = true then (s.reg r).toNat else s.pc.toNat + 2) ∧
        SameRegsExcept [] s t ∧ SameMemory s t ∧ t.fl = s.fl ∧ SameRun s t ∧ SamePorts s t) ∧
    OneOperandFaults (.jeq op1) op1 s

/-- JNE r (44_control.md section on JNE): taken exactly when bit 0 of FL is 0. The opcode byte is the spec's decision D10; the
register is read, and faults, also when the branch is not taken (decision D17). -/
def Obligations.JneBranchesWhenEqualIsClear : Prop :=
  ∀ (op1 : Byte) (s : State),
    (∀ rest, decode (0b01010110 :: op1 :: rest) = .ok (.jne op1, rest)) ∧
    (∀ r, op1 = regOperand r → s.isWritten r = true → s.pc.toNat ≤ 255 →
      ∃ t, exec (.jne op1) s = .next t ∧
        t.pc.toNat = (if s.fl.getLsbD 0 = false then (s.reg r).toNat else s.pc.toNat + 2) ∧
        SameRegsExcept [] s t ∧ SameMemory s t ∧ t.fl = s.fl ∧ SameRun s t ∧ SamePorts s t) ∧
    OneOperandFaults (.jne op1) op1 s

/-- An unrecognized opcode (40_cycle.md section 1): one diag event with the pc and the byte (the event's fields are the spec's
decision D18), the pc one further, and nothing else. -/
def Obligations.UnrecognizedByteIsLoggedAndSkipped : Prop :=
  ∀ (c : Config) (b : Byte) (s : State),
    (rowOf c b = .unrecognized → ∀ rest, decodeWith c (b :: rest) = .ok (.unrecognized b, rest)) ∧
    (s.pc.toNat ≤ 255 →
      ∃ t, exec (.unrecognized b) s = .next t ∧ t.diag = s.diag ++ [.unrecognizedOpcode s.pc b] ∧
        t.pc.toNat = s.pc.toNat + 1 ∧ SameRegsExcept [] s t ∧ SameMemory s t ∧ t.fl = s.fl ∧ SameRun s t ∧
        t.out = s.out ∧ t.trace = s.trace)

/-! ### Frames: what an instruction leaves unchanged whenever it answers a next state, a fault taken included -/

/-- LDI, ADD and MUL change no register but the one the first operand names, no flag, no memory and no port
(10_state.md section 1). -/
def Obligations.FrameOfRegisterWriters : Prop :=
  ∀ (i : Instr) (op1 op2 : Byte) (s t : State), i = .ldi op1 op2 ∨ i = .add op1 op2 ∨ i = .mul op1 op2 →
    exec i s = .next t →
    (∀ j, regOperand j ≠ op1 → t.reg j = s.reg j ∧ t.isWritten j = s.isWritten j) ∧
    t.fl = s.fl ∧ SameMemory s t ∧ SamePorts s t ∧ (SameRun s t ∨ TookFault s t ∧ SameRegsExcept [] s t)

/-- PRN, CMP, JMP, JEQ, JNE, HLT and an unrecognized byte change no register and no memory; CMP alone may change FL, PRN the
out port, an unrecognized byte the diag port, HLT the run state (10_state.md section 1, 20_memory.md section 2). -/
def Obligations.FrameOfInstructionsThatWriteNoRegister : Prop :=
  ∀ (i : Instr) (s t : State),
    (i = .hlt ∨ (∃ r, i = .prn r ∨ i = .jmp r ∨ i = .jeq r ∨ i = .jne r ∨ i = .unrecognized r) ∨
      ∃ a b, i = .cmp a b) →
    exec i s = .next t →
    SameRegsExcept [] s t ∧ SameMemory s t ∧ t.trace = s.trace ∧
    ((∀ a b, i ≠ .cmp a b) → t.fl = s.fl) ∧
    ((∀ r, i ≠ .prn r) → t.out = s.out) ∧
    ((∀ b, i ≠ .unrecognized b) → t.diag = s.diag) ∧
    (i ≠ .hlt → SameRun s t ∨ TookFault s t ∧ t.fl = s.fl ∧ t.out = s.out ∧ t.diag = s.diag)

/-- POP changes its destination and SP, RET changes SP, and neither changes another register, a flag, a byte of memory or a
port (10_state.md section 1, 20_memory.md section 2). -/
def Obligations.FrameOfPopAndRet : Prop :=
  ∀ (i : Instr) (s t : State), (i = .ret ∨ ∃ op1, i = .pop op1) → exec i s = .next t →
    (∀ j, j ≠ spIndex → i ≠ .pop (regOperand j) → t.reg j = s.reg j ∧ t.isWritten j = s.isWritten j) ∧
    t.fl = s.fl ∧ SameMemory s t ∧ SamePorts s t ∧ (SameRun s t ∨ TookFault s t ∧ SameRegsExcept [] s t)

/-- PUSH and CALL store one byte, at the address that SPDec leaves in SP, and change no other register than SP, no flag and
no port (10_state.md section 1, 20_memory.md section 2, 43_stack.md section 1). -/
def Obligations.FrameOfPushAndCall : Prop :=
  ∀ (i : Instr) (op1 : Byte) (s t : State), i = .push op1 ∨ i = .call op1 → exec i s = .next t →
    SameRegsExcept [spIndex] s t ∧ t.fl = s.fl ∧ SamePorts s t ∧
    (∀ (s1 : State) (a : Nat), s.spDec = .ok s1 → a = (s1.reg spIndex).toNat → SameMemoryExcept a s t) ∧
    (SameRun s t ∧ (∃ s1, s.spDec = .ok s1 ∧ t.reg spIndex = s1.reg spIndex) ∨
      TookFault s t ∧ SameRegsExcept [] s t ∧ SameMemory s t)

/-! ### Whole-machine rules -/

/-- 10_state.md section 3: a step changes FL only where the instruction at pc is a CMP, and no instruction's registers depend
on FL. The new FL is one of the three flag vectors of 41_alu.md section 2, whose bits 7:3 are 0 by the spec's decision D7 (log
entry 8). -/
def Obligations.OnlyCmpWritesTheFlags : Prop :=
  (∀ (c : Config) (s t : State), stepWith c s = .next t → t.fl ≠ s.fl →
    (∃ a b rest, decodeWith c (s.codeBytes s.pc.toNat) = .ok (.cmp a b, rest)) ∧
    (t.fl = 0b00000001 ∨ t.fl = 0b00000010 ∨ t.fl = 0b00000100)) ∧
  (∀ (i : Instr) (s t t' : State) (f : Byte), exec i s = .next t → exec i (s.writeFl f) = .next t' →
    SameRegsExcept [] t t')

/-- 10_state.md section 3 (derived there): every instruction but JEQ and JNE runs the same whatever FL holds, and those two
the same for every FL with the same bit 0. -/
def Obligations.OnlyTheEqualFlagIsRead : Prop :=
  ∀ (i : Instr) (s : State) (f : Byte),
    ((∃ r, i = .jeq r ∨ i = .jne r) → f.getLsbD 0 = s.fl.getLsbD 0) →
    ∃ t t', exec i s = .next t ∧ exec i (s.writeFl f) = .next t' ∧ t.writeFl 0 = t'.writeFl 0

/-- 20_memory.md section 2: a step changes at most one byte of memory, the one below the stack pointer, and only where the
instruction at pc is a PUSH or a CALL. -/
def Obligations.MemoryChangesOnlyBelowTheStackPointer : Prop :=
  ∀ (c : Config) (s t : State) (a : Nat), stepWith c s = .next t → t.byteAt a ≠ s.byteAt a →
    a + 1 = (s.reg spIndex).toNat ∧
    ∃ r rest, decodeWith c (s.codeBytes s.pc.toNat) = .ok (.push r, rest) ∨
      decodeWith c (s.codeBytes s.pc.toNat) = .ok (.call r, rest)

/-- 60_exceptions.md section 1 (decisions D14, D15): a step that faults commits nothing of its instruction, keeps the pc and
leaves the record of the pc, which the status port shows under run code 2 and the cause's code 1 to 4 (decision D16). Faulted
is terminal: no further step, which the model names `Fault.faulted` (its choice, log entry 3). This says what the step does;
40_cycle.md section 3 lets no claim about a program's result read a Faulted state's registers or memory. -/
def Obligations.FatalFaultsArePrecise : Prop :=
  ∀ (c : Config) (s t : State), stepWith c s = .next t → t.run = .faulted →
    (∃ cause code info, t.fault = some ⟨cause, s.pc, info⟩ ∧ t.status = (2, some (code, s.pc.toNat, info)) ∧
      ((cause = .addressOutOfRange ∧ code = 1) ∨ (cause = .invalidRegister ∧ code = 2) ∨
        (cause = .unsupportedOperation ∧ code = 3) ∨ (cause = .uninitializedRegister ∧ code = 4))) ∧
    SameRegsExcept [] s t ∧ SameMemory s t ∧ t.fl = s.fl ∧ t.pc = s.pc ∧ t.out = s.out ∧ t.diag = s.diag ∧
    t.trace = (s.emitTrace c).trace ∧ ∀ c', stepWith c' t = .fault .faulted

/-- 60_exceptions.md section 1, the column "reachable info values" (derived there): from a state that meets the invariant, a
step that faults records one of these, and none UnsupportedOperation. -/
def Obligations.FaultRecordsAreTheReachableOnes : Prop :=
  ∀ (c : Config) (s t : State), s.inv = true → stepWith c s = .next t → t.run = .faulted →
    ∃ cause info, t.fault = some ⟨cause, s.pc, info⟩ ∧
      ((cause = .addressOutOfRange ∧ (info = 256 ∨ info = -1)) ∨
        (cause = .invalidRegister ∧ 8 ≤ info ∧ info ≤ 255) ∨
        (cause = .uninitializedRegister ∧ 0 ≤ info ∧ info ≤ 6))

/-- 10_state.md section 2 (decision D3): the pc passes 255 only by the sequential advance of the instruction that ends at
address 255; no control transfer and no wrap is involved. -/
def Obligations.PcPasses255OnlySequentially : Prop :=
  ∀ (c : Config) (s t : State), s.inv = true → stepWith c s = .next t → s.pc.toNat ≤ 255 → 255 < t.pc.toNat →
    t.pc.toNat = 256 ∧
    ∃ i rest, decodeWith c (s.codeBytes s.pc.toNat) = .ok (i, rest) ∧ s.pc.toNat + i.length = 256 ∧
      i ≠ .hlt ∧ i ≠ .ret ∧ ∀ r, i ≠ .jmp r ∧ i ≠ .call r

/-- 10_state.md section 5 (decisions D18, D19 fix what an entry holds): the out port grows by the register of a PRN, the diag
port by the event of an unrecognized byte, each at its end, and neither changes otherwise. -/
def Obligations.OutAndDiagGrowByTheirInstructions : Prop :=
  ∀ (c : Config) (s t : State), stepWith c s = .next t →
    (t.out = s.out ∨
      ∃ r rest, decodeWith c (s.codeBytes s.pc.toNat) = .ok (.prn (regOperand r), rest) ∧
        t.out = s.out ++ [s.reg r]) ∧
    (t.diag = s.diag ∨
      ∃ b rest, decodeWith c (s.codeBytes s.pc.toNat) = .ok (.unrecognized b, rest) ∧
        t.diag = s.diag ++ [.unrecognizedOpcode s.pc b])

/-- 40_cycle.md section 2 (decision D20): the trace has no effect on execution. Two states that differ at most in their trace
logs step, under TRACE_ENABLED either way, to states that differ at most in their trace logs. -/
def Obligations.TraceHasNoEffectOnExecution : Prop :=
  ∀ (c : Config) (on1 on2 : Bool) (s1 s2 t1 : State), s1.eraseTrace = s2.eraseTrace →
    stepWith { c with traceEnabled := on1 } s1 = .next t1 →
    ∃ t2, stepWith { c with traceEnabled := on2 } s2 = .next t2 ∧ t1.eraseTrace = t2.eraseTrace

/-- 40_cycle.md section 2 (decision D20): a step emits one record of the state before it, or none when TRACE_ENABLED is
false; a byte beyond address 255 is absent. -/
def Obligations.EachStepEmitsOneTraceRecord : Prop :=
  ∀ (c : Config) (s t : State), stepWith c s = .next t →
    ∃ record : TraceRecord,
      t.trace = s.trace ++ (if c.traceEnabled = true then [record] else []) ∧
      record.pc = s.pc ∧ record.fl = s.fl ∧
      record.b0 = (if s.pc.toNat ≤ 255 then some (s.byteAt s.pc.toNat) else none) ∧
      record.b1 = (if s.pc.toNat + 1 ≤ 255 then some (s.byteAt (s.pc.toNat + 1)) else none) ∧
      record.b2 = (if s.pc.toNat + 2 ≤ 255 then some (s.byteAt (s.pc.toNat + 2)) else none)

/-- The step keeps the invariant: memory in canonical form, pc in 0..256, SP written, FL a legal flag vector, a fault record
exactly in Faulted (10_state.md sections 1 to 4, 20_memory.md section 1). -/
def Obligations.StepKeepsTheInvariant : Prop :=
  ∀ (c : Config) (s t : State), s.inv = true → stepWith c s = .next t → t.inv = true

/-- 40_cycle.md section 3 (decision D27): a run ends Halted, ends Faulted or never ends, and only one of the three. -/
def Obligations.RunEndsInExactlyOneWay : Prop :=
  ∀ (c : Config) (s : State),
    (EndsHalted c s ∧ ¬ EndsFaulted c s ∧ ¬ NeverEnds c s) ∨
    (¬ EndsHalted c s ∧ EndsFaulted c s ∧ ¬ NeverEnds c s) ∨
    (¬ EndsHalted c s ∧ ¬ EndsFaulted c s ∧ NeverEnds c s)

/-! ### Encoding -/

/-- 30_encoding.md R74: where the opcodes are distinct, as they are under parameters as 00_scope.md requires them, at most one
row matches a byte; the matching row gives the operand count and the action, and a byte without one is unrecognized. -/
def Obligations.OpcodeMapMatchesAtMostOneRow : Prop :=
  ∀ (c : Config) (b : Byte), c.opcodesDistinct = true →
    (∀ row row', opcodeByte c row = some b → opcodeByte c row' = some b → row = row') ∧
    (∀ row, opcodeByte c row = some b →
      rowOf c b = row ∧
      ∀ op1 op2 rest, decodeWith c (b :: op1 :: op2 :: rest) =
        .ok (instrOf row b op1 op2, (op1 :: op2 :: rest).drop (operandCount row))) ∧
    ((∀ row, opcodeByte c row ≠ some b) → rowOf c b = .unrecognized)

/-- 30_encoding.md R77: a byte that no row carries is unrecognized, and no other; with the default parameters there are 243
of them, 0x00 and 0xFF among them; each is a 1-byte instruction whatever follows it, and the pc advances by 1. -/
def Obligations.UnrecognizedBytesAreThe243Others : Prop :=
  (∀ (c : Config) (b : Byte), rowOf c b = .unrecognized ↔ ∀ row, opcodeByte c row ≠ some b) ∧
  ((List.range 256).filter (fun n => rowOf Config.default (BitVec.ofNat 8 n) = .unrecognized)).length = 243 ∧
  rowOf Config.default 0x00 = .unrecognized ∧ rowOf Config.default 0xFF = .unrecognized ∧
  (∀ (c : Config) (b : Byte) (rest : List Byte), rowOf c b = .unrecognized →
    decodeWith c (b :: rest) = .ok (.unrecognized b, rest)) ∧
  ∀ (b : Byte) (s : State), s.pc.toNat ≤ 255 →
    ∃ t, exec (.unrecognized b) s = .next t ∧ t.pc.toNat = s.pc.toNat + 1

/-- 30_encoding.md section 3 (decisions D9, D10): a parameter's byte decodes as its instruction, where the parameter is none
no byte does, and 0x55 is always JEQ; this needs only distinct opcodes. Under parameters as 00_scope.md section 3 requires them,
0xA0 (0x56) is unrecognized wherever it is not ADD's (JNE's) own byte, so also where the parameter is none. -/
def Obligations.ParametersDecideAddAndJne : Prop :=
  ∀ c : Config,
    (c.opcodesDistinct = true →
      (∀ b, c.addOpcode = some b → rowOf c b = .add) ∧
      (∀ b, c.jneOpcode = some b → rowOf c b = .jne) ∧
      (c.addOpcode = none → ∀ b, rowOf c b ≠ .add) ∧
      (c.jneOpcode = none → ∀ b, rowOf c b ≠ .jne) ∧
      rowOf c 0x55 = .jeq) ∧
    (c.wf = true →
      (c.addOpcode ≠ some 0xA0 → rowOf c 0xA0 = .unrecognized) ∧
      (c.jneOpcode ≠ some 0x56 → rowOf c 0x56 = .unrecognized))

/-- Decoding the bytes of any well-formed instruction, under any parameters with distinct opcodes (those 00_scope.md requires
among them) and with any bytes after them, gives that instruction with every operand and leaves those bytes (30_encoding.md
sections 1 to 3). -/
def Obligations.DecodeInvertsEncode : Prop :=
  ∀ (c : Config) (i : Instr) (rest : List Byte), c.opcodesDistinct = true → i.wf c = true →
    decodeWith c (encodeWith c i ++ rest) = .ok (i, rest)

/-- Every byte string has one reading: what decodes is a well-formed instruction whose bytes are the ones read
(30_encoding.md sections 1 to 3). -/
def Obligations.EncodeInvertsDecode : Prop :=
  ∀ (c : Config) (bytes : List Byte) (i : Instr) (rest : List Byte),
    decodeWith c bytes = .ok (i, rest) →
    i.wf c = true ∧ encodeWith c i ++ rest = bytes ∧ (encodeWith c i).length = i.length

/-! ### Memory, the load port, the ALU -/

/-- 20_memory.md R52: MemRead returns the byte at an address 0..255 and otherwise raises AddressOutOfRange of that very
integer, never wrapped, which is fatal to the instruction whatever it goes on to do. -/
def Obligations.MemReadChecksTheAddress : Prop :=
  ∀ (s : State) (addr : Int),
    (∀ a : Nat, a ≤ 255 → addr = a → s.memRead addr = .ok (s.byteAt a)) ∧
    (addr < 0 ∨ 255 < addr →
      s.memRead addr = .error ⟨.addressOutOfRange, addr⟩ ∧
      ∀ f : Byte → Except Raise State,
        s.commit (s.memRead addr >>= f) = .next (s.takeFault ⟨.addressOutOfRange, addr⟩))

/-- The canonical form holds one list for each contents (20_memory.md section 1): memories that read alike are equal. -/
def Obligations.MemoriesThatReadAlikeAreEqual : Prop :=
  ∀ m m' : Memory, m.wf = true → m'.wf = true → (∀ a, m.readByte a = m'.readByte a) → m = m'

/-- 20_memory.md section 4 (decision D23): after a write, the next fetch at that address finds the byte written, with no wait;
every other address fetches as before. -/
def Obligations.WrittenByteIsFetchedNext : Prop :=
  ∀ (s t : State) (addr : Int) (v : Byte), s.mem.wf = true → s.memWrite addr v = .ok t →
    (t.codeBytes addr.toNat).head? = some v ∧
    ∀ a, a ≠ addr.toNat → (t.codeBytes a).head? = (s.codeBytes a).head?

/-- 20_memory.md section 5 and 70_reset_and_hazards.md section 2: a launch image of at most 256 bytes stands at addresses
0.., the other cells hold 0x00 and everything else is as after reset; a longer one is refused (decision D21). -/
def Obligations.LaunchPlacesTheImage : Prop :=
  ∀ image : List Byte,
    (image.length ≤ 256 →
      ∃ t, State.launch image = .next t ∧ (∀ a, t.byteAt a = image.getD a 0x00) ∧ t.mem.wf = true ∧
        t = { State.reset with mem := t.mem }) ∧
    (256 < image.length → State.launch image = .refused .launchImageTooLong)

/-- 41_alu.md section 1 (decision D26): the ALU answers for its three kinds whatever the values, and raises
UnsupportedOperation for select value 11 alone. -/
def Obligations.AluRaisesOnlyOutsideItsKinds : Prop :=
  ∀ (kind : BitVec 2) (va vb : Byte),
    (kind ≠ 0b11 → ∃ output, alu kind va vb = .ok output) ∧
    (kind = 0b11 → alu kind va vb = .error ⟨.unsupportedOperation, 3⟩)

/-! ### Sequences of instructions -/

/-- 43_stack.md section 2 (derived there): LDI r, v; PUSH r; LDI r, 0; POP r restores r and SP for r in R0..R6 whenever SP is at
least 1; for R7 and v above 1 it leaves SP at M[0] + 1. -/
def Obligations.PushThenPopRestores : Prop :=
  ∀ (s : State) (r : Fin 8) (v : Byte), s.isWritten spIndex = true → s.mem.wf = true →
    (r ≠ spIndex → 0 < (s.reg spIndex).toNat →
      ∃ t1 t2 t3 t4, exec (.ldi (regOperand r) v) s = .next t1 ∧ exec (.push (regOperand r)) t1 = .next t2 ∧
        exec (.ldi (regOperand r) 0) t2 = .next t3 ∧ exec (.pop (regOperand r)) t3 = .next t4 ∧
        t4.reg r = v ∧ t4.reg spIndex = s.reg spIndex ∧ SameRun s t4 ∧ SameRegsExcept [r, spIndex] s t4 ∧
        SameMemoryExcept ((s.reg spIndex).toNat - 1) s t4) ∧
    (r = spIndex → 1 < v.toNat → (s.byteAt 0).toNat < 255 →
      ∃ t1 t2 t3 t4, exec (.ldi (regOperand r) v) s = .next t1 ∧ exec (.push (regOperand r)) t1 = .next t2 ∧
        exec (.ldi (regOperand r) 0) t2 = .next t3 ∧ exec (.pop (regOperand r)) t3 = .next t4 ∧
        (t4.reg spIndex).toNat = (s.byteAt 0).toNat + 1 ∧ SameRun s t4)

/-- 44_control.md section on CALL and RET (derived there): a RET from any later state whose SP and stacked byte are as the CALL
left them goes to the address after the CALL and restores SP. -/
def Obligations.RetReturnsAfterItsCall : Prop :=
  ∀ (s t u : State) (op1 : Byte), s.mem.wf = true → exec (.call op1) s = .next t → s.run = .running →
    t.run = .running → u.isWritten spIndex = true → u.reg spIndex = t.reg spIndex →
    u.byteAt (t.reg spIndex).toNat = t.byteAt (t.reg spIndex).toNat →
    ∃ w, exec .ret u = .next w ∧ w.pc.toNat = s.pc.toNat + 2 ∧ w.reg spIndex = s.reg spIndex ∧ SameRun u w

/-- 60_exceptions.md section 1 (derived there for an empty image): from a running state whose bytes from pc to the end of
memory are all unrecognized, each is logged in order, and then the fetch at 256 faults. -/
def Obligations.UnrecognizedBytesToTheEndOfMemoryEndInAFault : Prop :=
  ∀ (c : Config) (s : State), s.run = .running → s.pc.toNat ≤ 256 →
    (∀ a, s.pc.toNat ≤ a → a ≤ 255 → rowOf c (s.byteAt a) = .unrecognized) →
    ∃ t u, Steps c (256 - s.pc.toNat) s t ∧ t.run = .running ∧ t.pc.toNat = 256 ∧
      t.diag = s.diag ++ (List.range (256 - s.pc.toNat)).map (fun k =>
        DiagEvent.unrecognizedOpcode (BitVec.ofNat 9 (s.pc.toNat + k)) (s.byteAt (s.pc.toNat + k))) ∧
      stepWith c t = .next u ∧ u.run = .faulted ∧ u.fault = some ⟨.addressOutOfRange, 256, 256⟩ ∧ u.out = s.out

/-! ### The status port -/

/-- The numbers of the status port, all of them the spec's decision D16: run codes 0, 1 and 2 (10_state.md section 4), cause
codes 1 to 4 with the record's pc and info (60_exceptions.md section 1), and no record shown where there is none. -/
def Obligations.StatusPortShowsTheNumericCodes : Prop :=
  ∀ s : State,
    (s.run = .running → s.status.1 = 0) ∧
    (s.run = .halted → s.status.1 = 1) ∧
    (s.run = .faulted → s.status.1 = 2) ∧
    (s.fault = none → s.status.2 = none) ∧
    ∀ (pc : PcWord) (info : Int),
      (s.fault = some ⟨.addressOutOfRange, pc, info⟩ → s.status.2 = some (1, pc.toNat, info)) ∧
      (s.fault = some ⟨.invalidRegister, pc, info⟩ → s.status.2 = some (2, pc.toNat, info)) ∧
      (s.fault = some ⟨.unsupportedOperation, pc, info⟩ → s.status.2 = some (3, pc.toNat, info)) ∧
      (s.fault = some ⟨.uninitializedRegister, pc, info⟩ → s.status.2 = some (4, pc.toNat, info))

/-! ### The parameters -/

/-- What 00_scope.md section 3 requires of the parameters, with the other opcodes of 30_encoding.md section 3 written out:
ADD_OPCODE is none of the other twelve, JNE_OPCODE none of the other twelve, and the two differ. The defaults meet it, and it
makes the opcodes distinct. The bytes 0xA0 and 0x56 are the spec's decisions D9 and D10. -/
def Obligations.ParametersDifferFromEveryOtherOpcode : Prop :=
  (∀ c : Config, c.wf = true ↔
    (∀ b ∈ [0x01, 0x82, 0x47, 0xA2, 0x45, 0x46, 0x50, 0x11, 0xA7, 0x54, 0x55, 0x56], c.addOpcode ≠ some b) ∧
    (∀ b ∈ [0x01, 0x82, 0x47, 0xA0, 0xA2, 0x45, 0x46, 0x50, 0x11, 0xA7, 0x54, 0x55], c.jneOpcode ≠ some b) ∧
    (∀ b, c.addOpcode = some b → c.jneOpcode ≠ some b)) ∧
  Config.default.wf = true ∧
  ∀ c : Config, c.wf = true → c.opcodesDistinct = true
end

