-- ==== Sys2Proof/Laws/Decode.lean ====
section
/-! SUPPORT. The laws of the opcode map and of the splitting off of operand bytes. -/

namespace Sys2Proof

/-- Every row but the last stands in the opcode map. -/
theorem mem_opcodeRows {row : Row} (h : row ≠ .unrecognized) : row ∈ opcodeRows := by
  cases row <;> simp_all [opcodeRows]

/-- The row a byte decodes to carries that byte, or is the last one and no row carries it. -/
theorem rowOf_cases (c : Config) (b : Byte) :
    opcodeByte c (rowOf c b) = some b ∨
      (rowOf c b = .unrecognized ∧ ∀ row, opcodeByte c row ≠ some b) := by
  unfold rowOf
  cases h : opcodeRows.find? (fun row => opcodeByte c row == some b) with
  | some row => exact .inl (by simpa using List.find?_some h)
  | none =>
    refine .inr ⟨rfl, fun row hrow => ?_⟩
    have hne : row ≠ .unrecognized := by rintro rfl; cases hrow
    have := List.find?_eq_none.1 h row (mem_opcodeRows hne)
    simp [hrow] at this

theorem opcodeByte_rowOf {c : Config} {b : Byte} (h : rowOf c b ≠ .unrecognized) :
    opcodeByte c (rowOf c b) = some b :=
  (rowOf_cases c b).resolve_right fun hr => h hr.1

/-- What `Config.wf` says of the parameters. -/
theorem Config.wf_iff {c : Config} :
    c.wf = true ↔ c.opcodesDistinct = true ∧ c.addOpcode ≠ some 0x56 ∧ c.jneOpcode ≠ some 0xA0 := by
  simp [Config.wf, Config.default, and_assoc]

theorem Config.opcodesDistinct_of_wf {c : Config} (h : c.wf = true) : c.opcodesDistinct = true :=
  (Config.wf_iff.1 h).1

theorem Instr.row_instrOf (row : Row) (ir op1 op2 : Byte) : (instrOf row ir op1 op2).row = row := by
  cases row <;> rfl

theorem Instr.operandBytes_length (i : Instr) : i.operandBytes.length = operandCount i.row := by
  cases i <;> rfl

/-- Everything `takeOperands` can do where it answers. -/
theorem takeOperands_eq_ok {n : Nat} {bytes rest : List Byte} {op1 op2 : Byte}
    (h : takeOperands n bytes = .ok (op1, op2, rest)) :
    (n = 0 ∧ bytes = rest) ∨ (n = 1 ∧ bytes = op1 :: rest) ∨ (2 ≤ n ∧ bytes = op1 :: op2 :: rest) := by
  unfold takeOperands at h
  split at h <;> cases h
  · exact .inl ⟨rfl, rfl⟩
  · exact .inr (.inl ⟨rfl, rfl⟩)
  · exact .inr (.inr ⟨by omega, rfl⟩)

end Sys2Proof
end

