-- ==== Sys2Proof/Laws/State.lean ====
section
/-! SUPPORT. One lemma per field per update of the state, so that no proof unfolds a record update, and the laws of the
three observers `byteAt`, `reg` and `isWritten`. -/

namespace Sys2Proof.Machine

/-! ### writeReg -/

@[simp] theorem State.writeReg_mem (s : State) (i : Fin 8) (v : Byte) : (s.writeReg i v).mem = s.mem := rfl
@[simp] theorem State.writeReg_regs (s : State) (i : Fin 8) (v : Byte) : (s.writeReg i v).regs = s.regs.set i v := rfl
@[simp] theorem State.writeReg_written (s : State) (i : Fin 8) (v : Byte) : (s.writeReg i v).written = s.written.set i true := rfl
@[simp] theorem State.writeReg_pc (s : State) (i : Fin 8) (v : Byte) : (s.writeReg i v).pc = s.pc := rfl
@[simp] theorem State.writeReg_fl (s : State) (i : Fin 8) (v : Byte) : (s.writeReg i v).fl = s.fl := rfl
@[simp] theorem State.writeReg_run (s : State) (i : Fin 8) (v : Byte) : (s.writeReg i v).run = s.run := rfl
@[simp] theorem State.writeReg_fault (s : State) (i : Fin 8) (v : Byte) : (s.writeReg i v).fault = s.fault := rfl
@[simp] theorem State.writeReg_out (s : State) (i : Fin 8) (v : Byte) : (s.writeReg i v).out = s.out := rfl
@[simp] theorem State.writeReg_diag (s : State) (i : Fin 8) (v : Byte) : (s.writeReg i v).diag = s.diag := rfl
@[simp] theorem State.writeReg_trace (s : State) (i : Fin 8) (v : Byte) : (s.writeReg i v).trace = s.trace := rfl
@[simp] theorem State.writeReg_byteAt (s : State) (i : Fin 8) (v : Byte) (a : Nat) : (s.writeReg i v).byteAt a = s.byteAt a := rfl

/-! ### jump -/

@[simp] theorem State.jump_mem (s : State) (target : Byte) : (s.jump target).mem = s.mem := rfl
@[simp] theorem State.jump_regs (s : State) (target : Byte) : (s.jump target).regs = s.regs := rfl
@[simp] theorem State.jump_written (s : State) (target : Byte) : (s.jump target).written = s.written := rfl
@[simp] theorem State.jump_pc (s : State) (target : Byte) : (s.jump target).pc = target.setWidth 9 := rfl
@[simp] theorem State.jump_fl (s : State) (target : Byte) : (s.jump target).fl = s.fl := rfl
@[simp] theorem State.jump_run (s : State) (target : Byte) : (s.jump target).run = s.run := rfl
@[simp] theorem State.jump_fault (s : State) (target : Byte) : (s.jump target).fault = s.fault := rfl
@[simp] theorem State.jump_out (s : State) (target : Byte) : (s.jump target).out = s.out := rfl
@[simp] theorem State.jump_diag (s : State) (target : Byte) : (s.jump target).diag = s.diag := rfl
@[simp] theorem State.jump_trace (s : State) (target : Byte) : (s.jump target).trace = s.trace := rfl
@[simp] theorem State.jump_byteAt (s : State) (target : Byte) (a : Nat) : (s.jump target).byteAt a = s.byteAt a := rfl
@[simp] theorem State.jump_reg (s : State) (target : Byte) (j : Fin 8) : (s.jump target).reg j = s.reg j := rfl
@[simp] theorem State.jump_isWritten (s : State) (target : Byte) (j : Fin 8) : (s.jump target).isWritten j = s.isWritten j := rfl

/-! ### advance -/

@[simp] theorem State.advance_mem (s : State) (n : Nat) : (s.advance n).mem = s.mem := rfl
@[simp] theorem State.advance_regs (s : State) (n : Nat) : (s.advance n).regs = s.regs := rfl
@[simp] theorem State.advance_written (s : State) (n : Nat) : (s.advance n).written = s.written := rfl
@[simp] theorem State.advance_pc (s : State) (n : Nat) : (s.advance n).pc = BitVec.ofNat 9 (s.pc.toNat + n) := rfl
@[simp] theorem State.advance_fl (s : State) (n : Nat) : (s.advance n).fl = s.fl := rfl
@[simp] theorem State.advance_run (s : State) (n : Nat) : (s.advance n).run = s.run := rfl
@[simp] theorem State.advance_fault (s : State) (n : Nat) : (s.advance n).fault = s.fault := rfl
@[simp] theorem State.advance_out (s : State) (n : Nat) : (s.advance n).out = s.out := rfl
@[simp] theorem State.advance_diag (s : State) (n : Nat) : (s.advance n).diag = s.diag := rfl
@[simp] theorem State.advance_trace (s : State) (n : Nat) : (s.advance n).trace = s.trace := rfl
@[simp] theorem State.advance_byteAt (s : State) (n : Nat) (a : Nat) : (s.advance n).byteAt a = s.byteAt a := rfl
@[simp] theorem State.advance_reg (s : State) (n : Nat) (j : Fin 8) : (s.advance n).reg j = s.reg j := rfl
@[simp] theorem State.advance_isWritten (s : State) (n : Nat) (j : Fin 8) : (s.advance n).isWritten j = s.isWritten j := rfl

/-! ### writeFl -/

@[simp] theorem State.writeFl_mem (s : State) (v : Byte) : (s.writeFl v).mem = s.mem := rfl
@[simp] theorem State.writeFl_regs (s : State) (v : Byte) : (s.writeFl v).regs = s.regs := rfl
@[simp] theorem State.writeFl_written (s : State) (v : Byte) : (s.writeFl v).written = s.written := rfl
@[simp] theorem State.writeFl_pc (s : State) (v : Byte) : (s.writeFl v).pc = s.pc := rfl
@[simp] theorem State.writeFl_fl (s : State) (v : Byte) : (s.writeFl v).fl = v := rfl
@[simp] theorem State.writeFl_run (s : State) (v : Byte) : (s.writeFl v).run = s.run := rfl
@[simp] theorem State.writeFl_fault (s : State) (v : Byte) : (s.writeFl v).fault = s.fault := rfl
@[simp] theorem State.writeFl_out (s : State) (v : Byte) : (s.writeFl v).out = s.out := rfl
@[simp] theorem State.writeFl_diag (s : State) (v : Byte) : (s.writeFl v).diag = s.diag := rfl
@[simp] theorem State.writeFl_trace (s : State) (v : Byte) : (s.writeFl v).trace = s.trace := rfl
@[simp] theorem State.writeFl_byteAt (s : State) (v : Byte) (a : Nat) : (s.writeFl v).byteAt a = s.byteAt a := rfl
@[simp] theorem State.writeFl_reg (s : State) (v : Byte) (j : Fin 8) : (s.writeFl v).reg j = s.reg j := rfl
@[simp] theorem State.writeFl_isWritten (s : State) (v : Byte) (j : Fin 8) : (s.writeFl v).isWritten j = s.isWritten j := rfl

/-! ### emit -/

@[simp] theorem State.emit_mem (s : State) (v : Byte) : (s.emit v).mem = s.mem := rfl
@[simp] theorem State.emit_regs (s : State) (v : Byte) : (s.emit v).regs = s.regs := rfl
@[simp] theorem State.emit_written (s : State) (v : Byte) : (s.emit v).written = s.written := rfl
@[simp] theorem State.emit_pc (s : State) (v : Byte) : (s.emit v).pc = s.pc := rfl
@[simp] theorem State.emit_fl (s : State) (v : Byte) : (s.emit v).fl = s.fl := rfl
@[simp] theorem State.emit_run (s : State) (v : Byte) : (s.emit v).run = s.run := rfl
@[simp] theorem State.emit_fault (s : State) (v : Byte) : (s.emit v).fault = s.fault := rfl
@[simp] theorem State.emit_out (s : State) (v : Byte) : (s.emit v).out = s.out ++ [v] := rfl
@[simp] theorem State.emit_diag (s : State) (v : Byte) : (s.emit v).diag = s.diag := rfl
@[simp] theorem State.emit_trace (s : State) (v : Byte) : (s.emit v).trace = s.trace := rfl
@[simp] theorem State.emit_byteAt (s : State) (v : Byte) (a : Nat) : (s.emit v).byteAt a = s.byteAt a := rfl
@[simp] theorem State.emit_reg (s : State) (v : Byte) (j : Fin 8) : (s.emit v).reg j = s.reg j := rfl
@[simp] theorem State.emit_isWritten (s : State) (v : Byte) (j : Fin 8) : (s.emit v).isWritten j = s.isWritten j := rfl

/-! ### diagnose -/

@[simp] theorem State.diagnose_mem (s : State) (e : DiagEvent) : (s.diagnose e).mem = s.mem := rfl
@[simp] theorem State.diagnose_regs (s : State) (e : DiagEvent) : (s.diagnose e).regs = s.regs := rfl
@[simp] theorem State.diagnose_written (s : State) (e : DiagEvent) : (s.diagnose e).written = s.written := rfl
@[simp] theorem State.diagnose_pc (s : State) (e : DiagEvent) : (s.diagnose e).pc = s.pc := rfl
@[simp] theorem State.diagnose_fl (s : State) (e : DiagEvent) : (s.diagnose e).fl = s.fl := rfl
@[simp] theorem State.diagnose_run (s : State) (e : DiagEvent) : (s.diagnose e).run = s.run := rfl
@[simp] theorem State.diagnose_fault (s : State) (e : DiagEvent) : (s.diagnose e).fault = s.fault := rfl
@[simp] theorem State.diagnose_out (s : State) (e : DiagEvent) : (s.diagnose e).out = s.out := rfl
@[simp] theorem State.diagnose_diag (s : State) (e : DiagEvent) : (s.diagnose e).diag = s.diag ++ [e] := rfl
@[simp] theorem State.diagnose_trace (s : State) (e : DiagEvent) : (s.diagnose e).trace = s.trace := rfl
@[simp] theorem State.diagnose_byteAt (s : State) (e : DiagEvent) (a : Nat) : (s.diagnose e).byteAt a = s.byteAt a := rfl
@[simp] theorem State.diagnose_reg (s : State) (e : DiagEvent) (j : Fin 8) : (s.diagnose e).reg j = s.reg j := rfl
@[simp] theorem State.diagnose_isWritten (s : State) (e : DiagEvent) (j : Fin 8) : (s.diagnose e).isWritten j = s.isWritten j := rfl

/-! ### halt -/

@[simp] theorem State.halt_mem (s : State) : (s.halt).mem = s.mem := rfl
@[simp] theorem State.halt_regs (s : State) : (s.halt).regs = s.regs := rfl
@[simp] theorem State.halt_written (s : State) : (s.halt).written = s.written := rfl
@[simp] theorem State.halt_pc (s : State) : (s.halt).pc = s.pc := rfl
@[simp] theorem State.halt_fl (s : State) : (s.halt).fl = s.fl := rfl
@[simp] theorem State.halt_run (s : State) : (s.halt).run = .halted := rfl
@[simp] theorem State.halt_fault (s : State) : (s.halt).fault = s.fault := rfl
@[simp] theorem State.halt_out (s : State) : (s.halt).out = s.out := rfl
@[simp] theorem State.halt_diag (s : State) : (s.halt).diag = s.diag := rfl
@[simp] theorem State.halt_trace (s : State) : (s.halt).trace = s.trace := rfl
@[simp] theorem State.halt_byteAt (s : State) (a : Nat) : (s.halt).byteAt a = s.byteAt a := rfl
@[simp] theorem State.halt_reg (s : State) (j : Fin 8) : (s.halt).reg j = s.reg j := rfl
@[simp] theorem State.halt_isWritten (s : State) (j : Fin 8) : (s.halt).isWritten j = s.isWritten j := rfl

/-! ### takeFault -/

@[simp] theorem State.takeFault_mem (s : State) (r : Raise) : (s.takeFault r).mem = s.mem := rfl
@[simp] theorem State.takeFault_regs (s : State) (r : Raise) : (s.takeFault r).regs = s.regs := rfl
@[simp] theorem State.takeFault_written (s : State) (r : Raise) : (s.takeFault r).written = s.written := rfl
@[simp] theorem State.takeFault_pc (s : State) (r : Raise) : (s.takeFault r).pc = s.pc := rfl
@[simp] theorem State.takeFault_fl (s : State) (r : Raise) : (s.takeFault r).fl = s.fl := rfl
@[simp] theorem State.takeFault_run (s : State) (r : Raise) : (s.takeFault r).run = .faulted := rfl
@[simp] theorem State.takeFault_fault (s : State) (r : Raise) : (s.takeFault r).fault = some ⟨r.cause, s.pc, r.info⟩ := rfl
@[simp] theorem State.takeFault_out (s : State) (r : Raise) : (s.takeFault r).out = s.out := rfl
@[simp] theorem State.takeFault_diag (s : State) (r : Raise) : (s.takeFault r).diag = s.diag := rfl
@[simp] theorem State.takeFault_trace (s : State) (r : Raise) : (s.takeFault r).trace = s.trace := rfl
@[simp] theorem State.takeFault_byteAt (s : State) (r : Raise) (a : Nat) : (s.takeFault r).byteAt a = s.byteAt a := rfl
@[simp] theorem State.takeFault_reg (s : State) (r : Raise) (j : Fin 8) : (s.takeFault r).reg j = s.reg j := rfl
@[simp] theorem State.takeFault_isWritten (s : State) (r : Raise) (j : Fin 8) : (s.takeFault r).isWritten j = s.isWritten j := rfl

/-! ### setByte -/

@[simp] theorem State.setByte_mem (s : State) (a : Nat) (v : Byte) : (s.setByte a v).mem = s.mem.writeByte a v := rfl
@[simp] theorem State.setByte_regs (s : State) (a : Nat) (v : Byte) : (s.setByte a v).regs = s.regs := rfl
@[simp] theorem State.setByte_written (s : State) (a : Nat) (v : Byte) : (s.setByte a v).written = s.written := rfl
@[simp] theorem State.setByte_pc (s : State) (a : Nat) (v : Byte) : (s.setByte a v).pc = s.pc := rfl
@[simp] theorem State.setByte_fl (s : State) (a : Nat) (v : Byte) : (s.setByte a v).fl = s.fl := rfl
@[simp] theorem State.setByte_run (s : State) (a : Nat) (v : Byte) : (s.setByte a v).run = s.run := rfl
@[simp] theorem State.setByte_fault (s : State) (a : Nat) (v : Byte) : (s.setByte a v).fault = s.fault := rfl
@[simp] theorem State.setByte_out (s : State) (a : Nat) (v : Byte) : (s.setByte a v).out = s.out := rfl
@[simp] theorem State.setByte_diag (s : State) (a : Nat) (v : Byte) : (s.setByte a v).diag = s.diag := rfl
@[simp] theorem State.setByte_trace (s : State) (a : Nat) (v : Byte) : (s.setByte a v).trace = s.trace := rfl
@[simp] theorem State.setByte_reg (s : State) (a : Nat) (v : Byte) (j : Fin 8) : (s.setByte a v).reg j = s.reg j := rfl
@[simp] theorem State.setByte_isWritten (s : State) (a : Nat) (v : Byte) (j : Fin 8) : (s.setByte a v).isWritten j = s.isWritten j := rfl

/-! ### The register file -/

theorem State.writeReg_reg (s : State) (i j : Fin 8) (v : Byte) :
    (s.writeReg i v).reg j = if i = j then v else s.reg j := by
  simp [State.reg, State.writeReg, Vector.getElem_set, Fin.ext_iff]

theorem State.writeReg_isWritten (s : State) (i j : Fin 8) (v : Byte) :
    (s.writeReg i v).isWritten j = (decide (i = j) || s.isWritten j) := by
  by_cases h : i = j <;> simp [State.isWritten, State.writeReg, ← Fin.ext_iff, h]

@[simp] theorem State.writeReg_reg_same (s : State) (i : Fin 8) (v : Byte) : (s.writeReg i v).reg i = v := by
  simp [State.writeReg_reg]

@[simp] theorem State.writeReg_isWritten_same (s : State) (i : Fin 8) (v : Byte) :
    (s.writeReg i v).isWritten i = true := by
  simp [State.writeReg_isWritten]

theorem State.writeReg_reg_of_ne {i j : Fin 8} (h : i ≠ j) (s : State) (v : Byte) :
    (s.writeReg i v).reg j = s.reg j := by
  simp [State.writeReg_reg, h]

theorem State.writeReg_isWritten_of_ne {i j : Fin 8} (h : i ≠ j) (s : State) (v : Byte) :
    (s.writeReg i v).isWritten j = s.isWritten j := by
  simp [State.writeReg_isWritten, h]

/-! ### emitTrace -/

@[simp] theorem State.emitTrace_mem (s : State) (c : Config) : (s.emitTrace c).mem = s.mem := by
  unfold State.emitTrace; split <;> rfl
@[simp] theorem State.emitTrace_regs (s : State) (c : Config) : (s.emitTrace c).regs = s.regs := by
  unfold State.emitTrace; split <;> rfl
@[simp] theorem State.emitTrace_written (s : State) (c : Config) : (s.emitTrace c).written = s.written := by
  unfold State.emitTrace; split <;> rfl
@[simp] theorem State.emitTrace_pc (s : State) (c : Config) : (s.emitTrace c).pc = s.pc := by
  unfold State.emitTrace; split <;> rfl
@[simp] theorem State.emitTrace_fl (s : State) (c : Config) : (s.emitTrace c).fl = s.fl := by
  unfold State.emitTrace; split <;> rfl
@[simp] theorem State.emitTrace_run (s : State) (c : Config) : (s.emitTrace c).run = s.run := by
  unfold State.emitTrace; split <;> rfl
@[simp] theorem State.emitTrace_fault (s : State) (c : Config) : (s.emitTrace c).fault = s.fault := by
  unfold State.emitTrace; split <;> rfl
@[simp] theorem State.emitTrace_out (s : State) (c : Config) : (s.emitTrace c).out = s.out := by
  unfold State.emitTrace; split <;> rfl
@[simp] theorem State.emitTrace_diag (s : State) (c : Config) : (s.emitTrace c).diag = s.diag := by
  unfold State.emitTrace; split <;> rfl
@[simp] theorem State.emitTrace_byteAt (s : State) (c : Config) (a : Nat) : (s.emitTrace c).byteAt a = s.byteAt a := by
  unfold State.emitTrace; split <;> rfl
@[simp] theorem State.emitTrace_reg (s : State) (c : Config) (j : Fin 8) : (s.emitTrace c).reg j = s.reg j := by
  unfold State.emitTrace; split <;> rfl
@[simp] theorem State.emitTrace_isWritten (s : State) (c : Config) (j : Fin 8) : (s.emitTrace c).isWritten j = s.isWritten j := by
  unfold State.emitTrace; split <;> rfl

theorem State.emitTrace_trace (s : State) (c : Config) :
    (s.emitTrace c).trace = s.trace ++ (if c.traceEnabled then [s.traceRecord] else []) := by
  unfold State.emitTrace; split <;> simp

end Sys2Proof.Machine
end

