-- ==== Sys2Proof/Laws/Memory.lean ====
section
/-! SUPPORT. The laws of the sparse memory: a read after a write, and the canonical form, which every write keeps. -/

namespace Sys2Proof.Machine

@[simp] theorem Memory.readByte_nil (x : Nat) : Memory.readByte [] x = Memory.unlisted := rfl

theorem Memory.readByte_cons (a x : Nat) (b : Byte) (m : Memory) :
    Memory.readByte ((a, b) :: m) x = if a = x then b else Memory.readByte m x := rfl

/-- What the canonical form says of a listed cell and of the cells after it. -/
theorem Memory.wf_cons (a : Nat) (b : Byte) (m : Memory) :
    Memory.wf ((a, b) :: m) = true ↔
      a < 256 ∧ b ≠ Memory.unlisted ∧ (∀ cell ∈ m, a < cell.1) ∧ Memory.wf m = true := by
  simp [Memory.wf, and_assoc]

theorem Memory.readByte_of_lt {m : Memory} {x : Nat} (h : ∀ cell ∈ m, x < cell.1) :
    Memory.readByte m x = Memory.unlisted := by
  induction m with
  | nil => rfl
  | cons cell m ih =>
    obtain ⟨a, b⟩ := cell
    have ha : x < a := h (a, b) (by simp)
    rw [Memory.readByte_cons, if_neg (by omega)]
    exact ih fun cell hc => h cell (by simp [hc])

/-- Away from the address written, a write changes no read; this needs no canonical form. -/
theorem Memory.readByte_writeByte_of_ne {x y : Nat} (h : y ≠ x) (m : Memory) (v : Byte) :
    Memory.readByte (Memory.writeByte m x v) y = Memory.readByte m y := by
  induction m with
  | nil => by_cases hv : v = Memory.unlisted <;> simp [Memory.writeByte, Memory.readByte, hv, h.symm]
  | cons cell m ih =>
    obtain ⟨a, b⟩ := cell
    by_cases ha : a < x
    · simp [Memory.writeByte, Memory.readByte, ha, ih]
    · by_cases hx : a = x <;> by_cases hv : v = Memory.unlisted <;>
        simp [Memory.writeByte, Memory.readByte, hx, hv, ha, h.symm]

/-- A canonical memory reads back the byte written. -/
theorem Memory.readByte_writeByte_same {m : Memory} (hm : m.wf = true) (x : Nat) (v : Byte) :
    Memory.readByte (Memory.writeByte m x v) x = v := by
  induction m with
  | nil => by_cases hv : v = Memory.unlisted <;> simp [Memory.writeByte, Memory.readByte, hv]
  | cons cell m ih =>
    obtain ⟨a, b⟩ := cell
    obtain ⟨-, -, hlt, hwf⟩ := (Memory.wf_cons a b m).1 hm
    by_cases ha : a < x
    · have hne : a ≠ x := by omega
      simp [Memory.writeByte, Memory.readByte, ha, hne, ih hwf]
    · by_cases hx : a = x
      · subst hx
        by_cases hv : v = Memory.unlisted <;>
          simp [Memory.writeByte, Memory.readByte, hv, Memory.readByte_of_lt hlt]
      · have hm' : Memory.readByte m x = Memory.unlisted :=
          Memory.readByte_of_lt fun cell hc => by have := hlt cell hc; omega
        by_cases hv : v = Memory.unlisted <;> simp [Memory.writeByte, Memory.readByte, hv, ha, hx, hm']

theorem Memory.mem_writeByte {m : Memory} {x : Nat} {v : Byte} {cell : Host.Cell}
    (h : cell ∈ Memory.writeByte m x v) : cell.1 = x ∨ cell ∈ m := by
  induction m with
  | nil =>
    by_cases hv : v = Memory.unlisted
    · simp [Memory.writeByte, hv] at h
    · simp only [Memory.writeByte, hv, if_false, List.mem_singleton] at h
      exact .inl (by rw [h])
  | cons c m ih =>
    obtain ⟨a, b⟩ := c
    unfold Memory.writeByte at h
    split at h
    · rcases List.mem_cons.1 h with rfl | h
      · exact .inr (by simp)
      · exact (ih h).imp_right (List.mem_cons_of_mem _)
    · have hrest : cell ∈ (if a = x then m else (a, b) :: m) → cell ∈ (a, b) :: m := by
        split
        · exact List.mem_cons_of_mem _
        · exact id
      dsimp only at h
      by_cases hv : v = Memory.unlisted
      · rw [if_pos hv] at h
        exact .inr (hrest h)
      · rw [if_neg hv] at h
        rcases List.mem_cons.1 h with rfl | h
        · exact .inl rfl
        · exact .inr (hrest h)

/-- Every write inside 0..255 keeps the canonical form. -/
theorem Memory.wf_writeByte {m : Memory} (hm : m.wf = true) {x : Nat} (hx : x < 256) (v : Byte) :
    (Memory.writeByte m x v).wf = true := by
  induction m with
  | nil => by_cases hv : v = Memory.unlisted <;> simp [Memory.writeByte, Memory.wf, hv, hx]
  | cons cell m ih =>
    obtain ⟨a, b⟩ := cell
    obtain ⟨ha, hb, hlt, hwf⟩ := (Memory.wf_cons a b m).1 hm
    by_cases hax : a < x
    · rw [Memory.writeByte, if_pos hax, Memory.wf_cons]
      refine ⟨ha, hb, fun cell hc => ?_, ih hwf⟩
      rcases Memory.mem_writeByte hc with h | h
      · omega
      · exact hlt cell h
    · rw [Memory.writeByte, if_neg hax]
      by_cases he : a = x <;> by_cases hv : v = Memory.unlisted
      · simpa [he, hv] using hwf
      · subst he
        simp only [if_true, hv, if_false, Memory.wf_cons]
        exact ⟨hx, hv, hlt, hwf⟩
      · simpa [he, hv] using hm
      · simp only [he, if_false, hv, Memory.wf_cons]
        refine ⟨hx, hv, ?_, ha, hb, hlt, hwf⟩
        intro cell hc
        rcases List.mem_cons.1 hc with rfl | hc
        · simp only; omega
        · have := hlt cell hc; omega

/-! ### The memory primitives -/

theorem State.setByte_byteAt_of_ne {a b : Nat} (h : b ≠ a) (s : State) (v : Byte) :
    (s.setByte a v).byteAt b = s.byteAt b := Memory.readByte_writeByte_of_ne h _ _

theorem State.setByte_byteAt_same {s : State} (hm : s.mem.wf = true) (a : Nat) (v : Byte) :
    (s.setByte a v).byteAt a = v := Memory.readByte_writeByte_same hm _ _

theorem State.memRead_of_inRange {addr : Int} (h : inRange addr) (s : State) :
    s.memRead addr = .ok (s.byteAt addr.toNat) := if_pos h

theorem State.memRead_of_not_inRange {addr : Int} (h : ¬ inRange addr) (s : State) :
    s.memRead addr = .error ⟨.addressOutOfRange, addr⟩ := if_neg h

theorem State.memRead_toNat (s : State) (b : Byte) : s.memRead b.toNat = .ok (s.byteAt b.toNat) := by
  rw [State.memRead_of_inRange ⟨by omega, by have := b.isLt; omega⟩, Int.toNat_natCast]

theorem State.memWrite_of_not_inRange {addr : Int} (h : ¬ inRange addr) (s : State) (v : Byte) :
    s.memWrite addr v = .error ⟨.addressOutOfRange, addr⟩ := if_neg h

theorem State.memWrite_toNat (s : State) (b v : Byte) :
    s.memWrite b.toNat v = .ok (s.setByte b.toNat v) := by
  rw [State.memWrite, if_pos ⟨by omega, by have := b.isLt; omega⟩, Int.toNat_natCast]

/-- Everything a memory write can do: it changes `mem` alone, at the one address, and keeps the canonical form. -/
theorem State.memWrite_eq_ok {s t : State} {addr : Int} {v : Byte} (h : s.memWrite addr v = .ok t) :
    inRange addr ∧ t = s.setByte addr.toNat v ∧
      SameMemoryExcept addr.toNat s t ∧ (s.mem.wf = true → t.mem.wf = true ∧ t.byteAt addr.toNat = v) := by
  unfold State.memWrite at h
  split at h
  · rename_i hr
    cases h
    refine ⟨hr, rfl, fun a ha => Memory.readByte_writeByte_of_ne ha _ _, fun hm => ⟨?_, ?_⟩⟩
    · exact Memory.wf_writeByte hm (by omega) v
    · exact Memory.readByte_writeByte_same hm _ v
  · cases h

end Sys2Proof.Machine
end

