-- ==== Sys2Proof/Laws/Ops.lean ====
section
/-! SUPPORT. One spec lemma per shared operation: everything it can do, said once, for the proofs to cite. -/

namespace Sys2Proof.Machine

/-! ### Operands -/

theorem regOperand_toNat (r : Fin 8) : (regOperand r).toNat = r.val := by
  simp [regOperand]; omega

@[simp] theorem regIndex_regOperand (r : Fin 8) : regIndex (regOperand r) = .ok r := by
  simp [regIndex, regOperand_toNat]

theorem regIndex_of_gt {b : Byte} (h : 7 < b.toNat) : regIndex b = .error ⟨.invalidRegister, b.toNat⟩ := by
  simp [regIndex]; omega

/-- RegIndex answers a register only for the operand byte that names it. -/
theorem regIndex_eq_ok {b : Byte} {r : Fin 8} (h : regIndex b = .ok r) : b = regOperand r := by
  unfold regIndex at h
  split at h
  · cases h
    apply BitVec.eq_of_toNat_eq
    rw [regOperand_toNat]
  · cases h

/-- An operand byte names a register or is above 7, where RegIndex raises. -/
theorem regIndex_cases (b : Byte) :
    (∃ r, b = regOperand r ∧ regIndex b = .ok r) ∨
      (7 < b.toNat ∧ regIndex b = .error ⟨.invalidRegister, b.toNat⟩) := by
  by_cases h : b.toNat < 8
  · refine .inl ⟨⟨b.toNat, h⟩, BitVec.eq_of_toNat_eq ?_, by simp [regIndex, h]⟩
    rw [regOperand_toNat]
  · exact .inr ⟨by omega, regIndex_of_gt (by omega)⟩

/-! ### Register reads -/

theorem State.readReg_of_written {s : State} {i : Fin 8} (h : s.isWritten i = true) :
    s.readReg i = .ok (s.reg i) := by
  simp [State.readReg, h]

theorem State.readReg_of_unwritten {s : State} {i : Fin 8} (h : s.isWritten i = false) :
    s.readReg i = .error ⟨.uninitializedRegister, i.val⟩ := by
  simp [State.readReg, h]

@[simp] theorem State.readReg_writeReg_same (s : State) (i : Fin 8) (v : Byte) :
    (s.writeReg i v).readReg i = .ok v := by
  simp [State.readReg]

theorem State.readReg_writeReg_of_ne {i j : Fin 8} (h : i ≠ j) (s : State) (v : Byte) :
    (s.writeReg i v).readReg j = s.readReg j := by
  simp [State.readReg, State.writeReg_reg_of_ne h, State.writeReg_isWritten_of_ne h]

theorem State.readOperand_regOperand (s : State) (r : Fin 8) : s.readOperand (regOperand r) = s.readReg r := by
  simp [State.readOperand, bind, Except.bind]

theorem State.readOperand_of_gt {b : Byte} (h : 7 < b.toNat) (s : State) :
    s.readOperand b = .error ⟨.invalidRegister, b.toNat⟩ := by
  simp [State.readOperand, regIndex_of_gt h, bind, Except.bind]

/-! ### Stack-pointer arithmetic -/

/-- SPDec from a written SP above 0. -/
theorem State.spDec_of_pos {s : State} (hw : s.isWritten spIndex = true) (h : 0 < (s.reg spIndex).toNat) :
    s.spDec = .ok (s.writeReg spIndex (BitVec.ofNat 8 ((s.reg spIndex).toNat - 1))) := by
  simp only [State.spDec, State.readReg_of_written hw, bind, Except.bind]
  rw [if_neg (by omega)]

/-- SPDec from a written SP at 0 raises with info -1. -/
theorem State.spDec_of_zero {s : State} (hw : s.isWritten spIndex = true) (h : (s.reg spIndex).toNat = 0) :
    s.spDec = .error ⟨.addressOutOfRange, -1⟩ := by
  simp [State.spDec, State.readReg_of_written hw, bind, Except.bind, h]

/-- SPInc from a written SP below 255. -/
theorem State.spInc_of_lt {s : State} (hw : s.isWritten spIndex = true) (h : (s.reg spIndex).toNat < 255) :
    s.spInc = .ok (s.writeReg spIndex (BitVec.ofNat 8 ((s.reg spIndex).toNat + 1))) := by
  simp only [State.spInc, State.readReg_of_written hw, bind, Except.bind]
  rw [if_neg (by omega)]

/-- SPInc from a written SP at 255 raises with info 256. -/
theorem State.spInc_of_max {s : State} (hw : s.isWritten spIndex = true) (h : (s.reg spIndex).toNat = 255) :
    s.spInc = .error ⟨.addressOutOfRange, 256⟩ := by
  simp [State.spInc, State.readReg_of_written hw, bind, Except.bind, h]

/-- Everything SPDec can do: where it answers, SP was above 0 and is one less. -/
theorem State.spDec_eq_ok {s t : State} (h : s.spDec = .ok t) :
    s.isWritten spIndex = true ∧ 0 < (s.reg spIndex).toNat ∧
      t = s.writeReg spIndex (BitVec.ofNat 8 ((s.reg spIndex).toNat - 1)) := by
  cases hw : s.isWritten spIndex with
  | false => simp [State.spDec, State.readReg_of_unwritten hw, bind, Except.bind] at h
  | true =>
    by_cases hp : 0 < (s.reg spIndex).toNat
    · rw [State.spDec_of_pos hw hp] at h
      exact ⟨rfl, hp, by cases h; rfl⟩
    · rw [State.spDec_of_zero hw (by omega)] at h
      cases h

/-- Everything SPInc can do: where it answers, SP was below 255 and is one more. -/
theorem State.spInc_eq_ok {s t : State} (h : s.spInc = .ok t) :
    s.isWritten spIndex = true ∧ (s.reg spIndex).toNat < 255 ∧
      t = s.writeReg spIndex (BitVec.ofNat 8 ((s.reg spIndex).toNat + 1)) := by
  cases hw : s.isWritten spIndex with
  | false => simp [State.spInc, State.readReg_of_unwritten hw, bind, Except.bind] at h
  | true =>
    by_cases hp : (s.reg spIndex).toNat < 255
    · rw [State.spInc_of_lt hw hp] at h
      exact ⟨rfl, hp, by cases h; rfl⟩
    · rw [State.spInc_of_max hw (by have := (s.reg spIndex).isLt; omega)] at h
      cases h

/-! ### What a primitive raises where it raises -/

theorem regIndex_eq_error {b : Byte} {e : Raise} (h : regIndex b = .error e) :
    7 < b.toNat ∧ e = ⟨.invalidRegister, b.toNat⟩ := by
  rcases regIndex_cases b with ⟨r, -, hr⟩ | ⟨hb, hr⟩
  · rw [hr] at h; cases h
  · rw [hr] at h; cases h; exact ⟨hb, rfl⟩

/-- A register read that answers gives the register's value, and the register is written. -/
theorem State.readReg_eq_ok {s : State} {i : Fin 8} {v : Byte} (h : s.readReg i = .ok v) :
    s.isWritten i = true ∧ v = s.reg i := by
  cases hw : s.isWritten i with
  | false => rw [State.readReg_of_unwritten hw] at h; cases h
  | true => rw [State.readReg_of_written hw] at h; cases h; exact ⟨rfl, rfl⟩

theorem State.readReg_eq_error {s : State} {i : Fin 8} {e : Raise} (h : s.readReg i = .error e) :
    s.isWritten i = false ∧ e = ⟨.uninitializedRegister, i.val⟩ := by
  cases hw : s.isWritten i with
  | false => rw [State.readReg_of_unwritten hw] at h; cases h; exact ⟨rfl, rfl⟩
  | true => rw [State.readReg_of_written hw] at h; cases h

/-- A register operand's read that answers names a written register and gives its value. -/
theorem State.readOperand_eq_ok {s : State} {b v : Byte} (h : s.readOperand b = .ok v) :
    ∃ r, b = regOperand r ∧ s.isWritten r = true ∧ v = s.reg r := by
  rcases regIndex_cases b with ⟨r, rfl, -⟩ | ⟨hb, -⟩
  · rw [State.readOperand_regOperand] at h
    exact ⟨r, rfl, State.readReg_eq_ok h⟩
  · rw [State.readOperand_of_gt hb] at h; cases h

theorem State.readOperand_eq_error {s : State} {b : Byte} {e : Raise} (h : s.readOperand b = .error e) :
    (7 < b.toNat ∧ e = ⟨.invalidRegister, b.toNat⟩) ∨
      ∃ r, b = regOperand r ∧ s.isWritten r = false ∧ e = ⟨.uninitializedRegister, r.val⟩ := by
  rcases regIndex_cases b with ⟨r, rfl, -⟩ | ⟨hb, -⟩
  · rw [State.readOperand_regOperand] at h
    exact .inr ⟨r, rfl, State.readReg_eq_error h⟩
  · rw [State.readOperand_of_gt hb] at h; cases h; exact .inl ⟨hb, rfl⟩

theorem State.spDec_eq_error {s : State} {e : Raise} (hw : s.isWritten spIndex = true) (h : s.spDec = .error e) :
    (s.reg spIndex).toNat = 0 ∧ e = ⟨.addressOutOfRange, -1⟩ := by
  by_cases hp : 0 < (s.reg spIndex).toNat
  · rw [State.spDec_of_pos hw hp] at h; cases h
  · rw [State.spDec_of_zero hw (by omega)] at h; cases h; exact ⟨by omega, rfl⟩

theorem State.spInc_eq_error {s : State} {e : Raise} (hw : s.isWritten spIndex = true) (h : s.spInc = .error e) :
    (s.reg spIndex).toNat = 255 ∧ e = ⟨.addressOutOfRange, 256⟩ := by
  have := (s.reg spIndex).isLt
  by_cases hp : (s.reg spIndex).toNat < 255
  · rw [State.spInc_of_lt hw hp] at h; cases h
  · rw [State.spInc_of_max hw (by omega)] at h; cases h; exact ⟨by omega, rfl⟩

theorem State.memRead_eq_error {s : State} {addr : Int} {e : Raise} (h : s.memRead addr = .error e) :
    ¬ inRange addr ∧ e = ⟨.addressOutOfRange, addr⟩ := by
  by_cases hr : inRange addr
  · rw [State.memRead_of_inRange hr] at h; cases h
  · rw [State.memRead_of_not_inRange hr] at h; cases h; exact ⟨hr, rfl⟩

/-! ### The end of an instruction -/

/-- An instruction always answers a next state: what its action leaves, or the fault taken where it started. -/
theorem State.commit_eq_next {s t : State} {r : Except Raise State} (h : s.commit r = .next t) :
    r = .ok t ∨ ∃ e, r = .error e ∧ t = s.takeFault e := by
  cases r with
  | ok u => exact .inl (by simpa [State.commit] using h)
  | error e => exact .inr ⟨e, rfl, by simpa [State.commit] using h.symm⟩

theorem State.commit_ne_fault (s : State) (r : Except Raise State) (f : Fault) : s.commit r ≠ .fault f := by
  cases r <;> simp [State.commit]

theorem State.commit_ne_refused (s : State) (r : Except Raise State) (f : Refusal) : s.commit r ≠ .refused f := by
  cases r <;> simp [State.commit]

/-- From a chain of primitives that answers, the first one answered and so did the rest. -/
theorem bind_eq_ok {α β : Type} {x : Except Raise α} {f : α → Except Raise β} {b : β} (h : (x >>= f) = .ok b) :
    ∃ a, x = .ok a ∧ f a = .ok b := by
  cases x with
  | error e => cases h
  | ok a => exact ⟨a, rfl, h⟩

/-- A chain of primitives raises where its first one does, or where the rest does after it answered. -/
theorem bind_eq_error {α β : Type} {x : Except Raise α} {f : α → Except Raise β} {e : Raise}
    (h : (x >>= f) = .error e) : x = .error e ∨ ∃ a, x = .ok a ∧ f a = .error e := by
  cases x with
  | error e' => exact .inl (by simpa [bind, Except.bind] using h)
  | ok a => exact .inr ⟨a, rfl, h⟩

/-! ### The ALU -/

theorem alu_add (va vb : Byte) : alu aluAdd va vb = .ok (.result (va + vb)) := by
  simp [alu, BitVec.ofNat_add]

theorem alu_mul (va vb : Byte) : alu aluMul va vb = .ok (.result (va * vb)) := by
  simp [alu, aluAdd, aluMul, BitVec.ofNat_mul]

theorem alu_cmp (va vb : Byte) : alu aluCmp va vb = .ok (.flags (compareFlags va vb)) := by
  simp [alu, aluAdd, aluMul, aluCmp]

/-- The flag vector of a comparison is one of the three. -/
theorem compareFlags_cases (va vb : Byte) :
    compareFlags va vb = flagsEqual ∨ compareFlags va vb = flagsGreater ∨ compareFlags va vb = flagsLess := by
  unfold compareFlags
  split
  · exact .inl rfl
  · split
    · exact .inr (.inl rfl)
    · exact .inr (.inr rfl)

/-- Everything the action of ADD, MUL and CMP can do where it answers. -/
theorem aluAction_eq_ok {kind : AluKind} {op1 op2 : Byte} {s t : State} (h : aluAction kind op1 op2 s = .ok t) :
    ∃ a b output, op1 = regOperand a ∧ op2 = regOperand b ∧ s.isWritten a = true ∧ s.isWritten b = true ∧
      alu kind (s.reg a) (s.reg b) = .ok output ∧ t = (s.writeAluOutput a output).advance 3 := by
  obtain ⟨a, ha, h⟩ := bind_eq_ok h
  obtain ⟨b, hb, h⟩ := bind_eq_ok h
  obtain ⟨va, hva, h⟩ := bind_eq_ok h
  obtain ⟨vb, hvb, h⟩ := bind_eq_ok h
  obtain ⟨output, ho, ht⟩ := bind_eq_ok h
  cases hwa : s.isWritten a with
  | false => rw [State.readReg_of_unwritten hwa] at hva; cases hva
  | true =>
    cases hwb : s.isWritten b with
    | false => rw [State.readReg_of_unwritten hwb] at hvb; cases hvb
    | true =>
      rw [State.readReg_of_written hwa] at hva
      rw [State.readReg_of_written hwb] at hvb
      cases hva; cases hvb; cases ht
      exact ⟨a, b, output, regIndex_eq_ok ha, regIndex_eq_ok hb, hwa, hwb, ho, rfl⟩

end Sys2Proof.Machine
end

