-- ==== Sys2Proof/Laws/Exec.lean ====
section
/-! SUPPORT. One inversion lemma per instruction: where its meaning answers `next t`, either the fault was taken where it
started or `t` is the state named. Proofs about what an instruction can do cite these and do not unfold the meanings. -/

namespace Sys2Proof.Machine

/-- Everything the instruction `i` at `s` can raise once its bytes are fetched (60_exceptions.md R150). -/
inductive Raisable (i : Instr) (s : State) : Raise → Prop where
  /-- A register operand above 7. -/
  | invalidRegister (b : Byte) (h : 7 < b.toNat) : Raisable i s ⟨.invalidRegister, b.toNat⟩
  /-- A read of an unwritten register. -/
  | uninitializedRegister (r : Fin 8) (h : s.isWritten r = false) : Raisable i s ⟨.uninitializedRegister, r.val⟩
  /-- SPDec from 0. -/
  | belowMemory : Raisable i s ⟨.addressOutOfRange, -1⟩
  /-- SPInc from 255. -/
  | aboveMemory : Raisable i s ⟨.addressOutOfRange, 256⟩
  /-- A return address above 255, of CALL alone. -/
  | returnAddress (op1 : Byte) (hi : i = .call op1) (h : 255 < s.pc.toNat + 2) : Raisable i s ⟨.addressOutOfRange, (s.pc.toNat + 2 : Nat)⟩

/-- The fault branch of every inversion lemma. -/
def FaultTaken (i : Instr) (s t : State) : Prop :=
  ∃ e, Raisable i s e ∧ t = s.takeFault e

/-- What a chain of primitives raises is what its first one raises or what the rest raises after it. -/
theorem raisable_bind {i : Instr} {s : State} {α β : Type} {x : Except Raise α} {f : α → Except Raise β} {e : Raise}
    (h : (x >>= f) = .error e) (hx : x = .error e → Raisable i s e)
    (hf : ∀ a, x = .ok a → f a = .error e → Raisable i s e) : Raisable i s e := by
  rcases bind_eq_error h with h | ⟨a, ha, h⟩
  · exact hx h
  · exact hf a ha h

theorem raisable_regIndex {i : Instr} {s : State} {b : Byte} {e : Raise} (h : regIndex b = .error e) : Raisable i s e := by
  obtain ⟨hb, rfl⟩ := regIndex_eq_error h
  exact .invalidRegister b hb

theorem raisable_readReg {i : Instr} {s : State} {r : Fin 8} {e : Raise} (h : s.readReg r = .error e) : Raisable i s e := by
  obtain ⟨hw, rfl⟩ := State.readReg_eq_error h
  exact .uninitializedRegister r hw

theorem raisable_readOperand {i : Instr} {s : State} {b : Byte} {e : Raise} (h : s.readOperand b = .error e) : Raisable i s e :=
  raisable_bind h raisable_regIndex fun _ _ => raisable_readReg

theorem raisable_spDec {i : Instr} {s : State} {e : Raise} (h : s.spDec = .error e) : Raisable i s e := by
  cases hw : s.isWritten spIndex with
  | false => exact raisable_bind h raisable_readReg fun v hv => by simp [State.readReg_of_unwritten hw] at hv
  | true => obtain ⟨-, rfl⟩ := State.spDec_eq_error hw h; exact .belowMemory

/-- SPInc in a state whose SP is written where `s`'s is. -/
theorem raisable_spInc {i : Instr} {s s1 : State} {e : Raise} (hw : s.isWritten spIndex = true → s1.isWritten spIndex = true)
    (hs : s.isWritten spIndex = true) (h : s1.spInc = .error e) : Raisable i s e := by
  obtain ⟨-, rfl⟩ := State.spInc_eq_error (hw hs) h
  exact .aboveMemory

/-- A register read after a write to another register or to the same one. -/
theorem raisable_readReg_of_written {i : Instr} {s s1 : State} {r : Fin 8} {e : Raise}
    (hw : s.isWritten r = true → s1.isWritten r = true) (h : s1.readReg r = .error e) : Raisable i s e := by
  obtain ⟨h1, rfl⟩ := State.readReg_eq_error h
  cases hs : s.isWritten r with
  | false => exact .uninitializedRegister r hs
  | true => simp [hw hs] at h1

theorem raisable_aluAction {i : Instr} {kind : AluKind} {op1 op2 : Byte} {s : State} {e : Raise} (hk : kind ≠ 0b11)
    (h : aluAction kind op1 op2 s = .error e) : Raisable i s e := by
  refine raisable_bind h raisable_regIndex fun a _ h => raisable_bind h raisable_regIndex fun b _ h =>
    raisable_bind h raisable_readReg fun va _ h => raisable_bind h raisable_readReg fun vb _ h =>
    raisable_bind h (fun ho => ?_) fun o _ => nofun
  have hall : ∀ k : AluKind, k ≠ 0b11 → k = aluAdd ∨ k = aluMul ∨ k = aluCmp := by decide
  rcases hall kind hk with rfl | rfl | rfl
  · rw [alu_add] at ho; cases ho
  · rw [alu_mul] at ho; cases ho
  · rw [alu_cmp] at ho; cases ho

theorem execHlt_eq_next {s t : State} (h : execHlt s = .next t) : t = s.halt.jump 0 := by
  rcases State.commit_eq_next h with h | ⟨e, h, -⟩ <;> cases h
  rfl

theorem execUnrecognized_eq_next {b : Byte} {s t : State} (h : execUnrecognized b s = .next t) :
    t = (s.diagnose (.unrecognizedOpcode s.pc b)).advance 1 := by
  rcases State.commit_eq_next h with h | ⟨e, h, -⟩ <;> cases h
  rfl

theorem execLdi_eq_next {op1 imm : Byte} {s t : State} (h : execLdi op1 imm s = .next t) :
    (∃ r, op1 = regOperand r ∧ t = (s.writeReg r imm).advance 3) ∨ FaultTaken (.ldi op1 imm) s t := by
  rcases State.commit_eq_next h with h | ⟨e, he, ht⟩
  · obtain ⟨r, hr, ht⟩ := bind_eq_ok h
    cases ht
    exact .inl ⟨r, regIndex_eq_ok hr, rfl⟩
  · exact .inr ⟨e, raisable_bind he raisable_regIndex fun _ _ => nofun, ht⟩

theorem execPrn_eq_next {op1 : Byte} {s t : State} (h : execPrn op1 s = .next t) :
    (∃ r, op1 = regOperand r ∧ s.isWritten r = true ∧ t = (s.emit (s.reg r)).advance 2) ∨ FaultTaken (.prn op1) s t := by
  rcases State.commit_eq_next h with h | ⟨e, he, ht⟩
  · obtain ⟨v, hv, ht⟩ := bind_eq_ok h
    obtain ⟨r, ho, hw, rfl⟩ := State.readOperand_eq_ok hv
    cases ht
    exact .inl ⟨r, ho, hw, rfl⟩
  · exact .inr ⟨e, raisable_bind he raisable_readOperand fun _ _ => nofun, ht⟩

theorem execAdd_eq_next {op1 op2 : Byte} {s t : State} (h : execAdd op1 op2 s = .next t) :
    (∃ a b, op1 = regOperand a ∧ op2 = regOperand b ∧ s.isWritten a = true ∧ s.isWritten b = true ∧
      t = (s.writeReg a (s.reg a + s.reg b)).advance 3) ∨ FaultTaken (.add op1 op2) s t := by
  rcases State.commit_eq_next h with h | ⟨e, he, ht⟩
  · obtain ⟨a, b, output, ha, hb, hwa, hwb, ho, rfl⟩ := aluAction_eq_ok h
    rw [alu_add] at ho
    cases ho
    exact .inl ⟨a, b, ha, hb, hwa, hwb, rfl⟩
  · exact .inr ⟨e, raisable_aluAction (by decide) he, ht⟩

theorem execMul_eq_next {op1 op2 : Byte} {s t : State} (h : execMul op1 op2 s = .next t) :
    (∃ a b, op1 = regOperand a ∧ op2 = regOperand b ∧ s.isWritten a = true ∧ s.isWritten b = true ∧
      t = (s.writeReg a (s.reg a * s.reg b)).advance 3) ∨ FaultTaken (.mul op1 op2) s t := by
  rcases State.commit_eq_next h with h | ⟨e, he, ht⟩
  · obtain ⟨a, b, output, ha, hb, hwa, hwb, ho, rfl⟩ := aluAction_eq_ok h
    rw [alu_mul] at ho
    cases ho
    exact .inl ⟨a, b, ha, hb, hwa, hwb, rfl⟩
  · exact .inr ⟨e, raisable_aluAction (by decide) he, ht⟩

theorem execCmp_eq_next {op1 op2 : Byte} {s t : State} (h : execCmp op1 op2 s = .next t) :
    (∃ a b, op1 = regOperand a ∧ op2 = regOperand b ∧ s.isWritten a = true ∧ s.isWritten b = true ∧
      t = (s.writeFl (flOfFlags (compareFlags (s.reg a) (s.reg b)))).advance 3) ∨ FaultTaken (.cmp op1 op2) s t := by
  rcases State.commit_eq_next h with h | ⟨e, he, ht⟩
  · obtain ⟨a, b, output, ha, hb, hwa, hwb, ho, rfl⟩ := aluAction_eq_ok h
    rw [alu_cmp] at ho
    cases ho
    exact .inl ⟨a, b, ha, hb, hwa, hwb, rfl⟩
  · exact .inr ⟨e, raisable_aluAction (by decide) he, ht⟩

/-- A taken or not taken branch whose register is written. -/
theorem branchAction_eq_ok {taken : Bool} {op1 : Byte} {s t : State} (h : branchAction taken op1 s = .ok t) :
    ∃ r, op1 = regOperand r ∧ s.isWritten r = true ∧ t = if taken then s.jump (s.reg r) else s.advance 2 := by
  obtain ⟨v, hv, ht⟩ := bind_eq_ok h
  obtain ⟨r, ho, hw, rfl⟩ := State.readOperand_eq_ok hv
  cases ht
  exact ⟨r, ho, hw, rfl⟩

theorem execJmp_eq_next {op1 : Byte} {s t : State} (h : execJmp op1 s = .next t) :
    (∃ r, op1 = regOperand r ∧ s.isWritten r = true ∧ t = s.jump (s.reg r)) ∨ FaultTaken (.jmp op1) s t := by
  rcases State.commit_eq_next h with h | ⟨e, he, ht⟩
  · obtain ⟨v, hv, ht⟩ := bind_eq_ok h
    obtain ⟨r, ho, hw, rfl⟩ := State.readOperand_eq_ok hv
    cases ht
    exact .inl ⟨r, ho, hw, rfl⟩
  · exact .inr ⟨e, raisable_bind he raisable_readOperand fun _ _ => nofun, ht⟩

theorem execJeq_eq_next {op1 : Byte} {s t : State} (h : execJeq op1 s = .next t) :
    (∃ r, op1 = regOperand r ∧ s.isWritten r = true ∧
      t = if s.equalFlag then s.jump (s.reg r) else s.advance 2) ∨ FaultTaken (.jeq op1) s t := by
  rcases State.commit_eq_next h with h | ⟨e, he, ht⟩
  · exact .inl (branchAction_eq_ok h)
  · exact .inr ⟨e, raisable_bind he raisable_readOperand fun _ _ => nofun, ht⟩

theorem execJne_eq_next {op1 : Byte} {s t : State} (h : execJne op1 s = .next t) :
    (∃ r, op1 = regOperand r ∧ s.isWritten r = true ∧
      t = if (!s.equalFlag) then s.jump (s.reg r) else s.advance 2) ∨ FaultTaken (.jne op1) s t := by
  rcases State.commit_eq_next h with h | ⟨e, he, ht⟩
  · exact .inl (branchAction_eq_ok h)
  · exact .inr ⟨e, raisable_bind he raisable_readOperand fun _ _ => nofun, ht⟩

/-- The state after the push side of PUSH and CALL: SP one less, and a byte stored at it. -/
def State.pushed (s : State) (v : Byte) : State :=
  let sp := BitVec.ofNat 8 ((s.reg spIndex).toNat - 1)
  (s.writeReg spIndex sp).setByte sp.toNat v

theorem execPush_eq_next {op1 : Byte} {s t : State} (h : execPush op1 s = .next t) :
    (∃ r, op1 = regOperand r ∧ s.isWritten spIndex = true ∧ 0 < (s.reg spIndex).toNat ∧ s.isWritten r = true ∧
      t = (s.pushed (if spIndex = r then BitVec.ofNat 8 ((s.reg spIndex).toNat - 1) else s.reg r)).advance 2) ∨
      FaultTaken (.push op1) s t := by
  rcases State.commit_eq_next h with h | ⟨e, he, ht⟩
  · obtain ⟨r, hr, h⟩ := bind_eq_ok h
    obtain ⟨s1, hs1, h⟩ := bind_eq_ok h
    obtain ⟨hw, hp, rfl⟩ := State.spDec_eq_ok hs1
    obtain ⟨v, hv, h⟩ := bind_eq_ok h
    rw [State.readReg_writeReg_same] at h
    obtain ⟨sp, hsp, h⟩ := bind_eq_ok h
    cases hsp
    rw [State.memWrite_toNat] at h
    cases h
    obtain ⟨hwr, rfl⟩ := State.readReg_eq_ok hv
    refine .inl ⟨r, regIndex_eq_ok hr, hw, hp, ?_, ?_⟩
    · by_cases hr7 : spIndex = r
      · rw [← hr7]; exact hw
      · rwa [State.writeReg_isWritten_of_ne hr7] at hwr
    · rw [State.writeReg_reg]; rfl
  · refine .inr ⟨e, raisable_bind he raisable_regIndex fun r _ h => raisable_bind h raisable_spDec fun s1 hs1 h => ?_, ht⟩
    obtain ⟨-, -, rfl⟩ := State.spDec_eq_ok hs1
    refine raisable_bind h (raisable_readReg_of_written fun h => by simp [State.writeReg_isWritten, h]) fun v _ h => ?_
    rw [State.readReg_writeReg_same] at h
    refine raisable_bind h nofun fun sp hsp h => ?_
    cases hsp
    rw [State.memWrite_toNat] at h
    cases h

theorem execCall_eq_next {op1 : Byte} {s t : State} (h : execCall op1 s = .next t) :
    (∃ r, op1 = regOperand r ∧ s.isWritten spIndex = true ∧ 0 < (s.reg spIndex).toNat ∧ s.isWritten r = true ∧
      s.pc.toNat + 2 ≤ 255 ∧
      t = (s.pushed (BitVec.ofNat 8 (s.pc.toNat + 2))).jump
        (if spIndex = r then BitVec.ofNat 8 ((s.reg spIndex).toNat - 1) else s.reg r)) ∨
      FaultTaken (.call op1) s t := by
  rcases State.commit_eq_next h with h | ⟨e, he, ht⟩
  · obtain ⟨r, hr, h⟩ := bind_eq_ok h
    obtain ⟨s1, hs1, h⟩ := bind_eq_ok h
    obtain ⟨hw, hp, rfl⟩ := State.spDec_eq_ok hs1
    split at h
    · cases h
    rename_i hret
    rw [State.readReg_writeReg_same] at h
    obtain ⟨sp, hsp, h⟩ := bind_eq_ok h
    cases hsp
    rw [State.memWrite_toNat] at h
    obtain ⟨s2, hs2, h⟩ := bind_eq_ok h
    cases hs2
    obtain ⟨v, hv, h⟩ := bind_eq_ok h
    cases h
    obtain ⟨hwr, rfl⟩ := State.readReg_eq_ok hv
    rw [State.setByte_isWritten] at hwr
    refine .inl ⟨r, regIndex_eq_ok hr, hw, hp, ?_, by omega, ?_⟩
    · by_cases hr7 : spIndex = r
      · rw [← hr7]; exact hw
      · rwa [State.writeReg_isWritten_of_ne hr7] at hwr
    · rw [State.setByte_reg, State.writeReg_reg]; rfl
  · refine .inr ⟨e, raisable_bind he raisable_regIndex fun r _ h => raisable_bind h raisable_spDec fun s1 hs1 h => ?_, ht⟩
    obtain ⟨-, -, rfl⟩ := State.spDec_eq_ok hs1
    split at h
    · cases h; exact .returnAddress op1 rfl (by omega)
    rw [State.readReg_writeReg_same] at h
    refine raisable_bind h nofun fun sp hsp h => ?_
    cases hsp
    rw [State.memWrite_toNat] at h
    refine raisable_bind h nofun fun s2 hs2 h => ?_
    cases hs2
    exact raisable_bind h (raisable_readReg_of_written fun h => by simp [State.writeReg_isWritten, h]) fun v _ => nofun

theorem execPop_eq_next {op1 : Byte} {s t : State} (h : execPop op1 s = .next t) :
    (∃ r s1, op1 = regOperand r ∧ s.isWritten spIndex = true ∧ s1 = s.writeReg r (s.byteAt (s.reg spIndex).toNat) ∧
      (s1.reg spIndex).toNat < 255 ∧
      t = (s1.writeReg spIndex (BitVec.ofNat 8 ((s1.reg spIndex).toNat + 1))).advance 2) ∨ FaultTaken (.pop op1) s t := by
  rcases State.commit_eq_next h with h | ⟨e, he, ht⟩
  · obtain ⟨r, hr, h⟩ := bind_eq_ok h
    obtain ⟨sp, hsp, h⟩ := bind_eq_ok h
    obtain ⟨hw, rfl⟩ := State.readReg_eq_ok hsp
    rw [State.memRead_toNat] at h
    obtain ⟨v, hv, h⟩ := bind_eq_ok h
    cases hv
    obtain ⟨s1, hs1, h⟩ := bind_eq_ok h
    cases h
    obtain ⟨-, hlt, rfl⟩ := State.spInc_eq_ok hs1
    exact .inl ⟨r, _, regIndex_eq_ok hr, hw, rfl, hlt, rfl⟩
  · refine .inr ⟨e, raisable_bind he raisable_regIndex fun r _ h => raisable_bind h raisable_readReg fun sp hsp h => ?_, ht⟩
    rw [State.memRead_toNat] at h
    refine raisable_bind h nofun fun v _ h =>
      raisable_bind h (raisable_spInc (fun h => ?_) (State.readReg_eq_ok hsp).1) fun _ _ => nofun
    simp [State.writeReg_isWritten, h]

theorem execRet_eq_next {s t : State} (h : execRet s = .next t) :
    (s.isWritten spIndex = true ∧ (s.reg spIndex).toNat < 255 ∧
      t = (s.writeReg spIndex (BitVec.ofNat 8 ((s.reg spIndex).toNat + 1))).jump
        (s.byteAt (s.reg spIndex).toNat)) ∨ FaultTaken .ret s t := by
  rcases State.commit_eq_next h with h | ⟨e, he, ht⟩
  · obtain ⟨sp, hsp, h⟩ := bind_eq_ok h
    obtain ⟨hw, rfl⟩ := State.readReg_eq_ok hsp
    rw [State.memRead_toNat] at h
    obtain ⟨v, hv, h⟩ := bind_eq_ok h
    cases hv
    obtain ⟨s1, hs1, h⟩ := bind_eq_ok h
    cases h
    obtain ⟨-, hlt, rfl⟩ := State.spInc_eq_ok hs1
    exact .inl ⟨hw, hlt, rfl⟩
  · refine .inr ⟨e, raisable_bind he raisable_readReg fun sp hsp h => ?_, ht⟩
    rw [State.memRead_toNat] at h
    exact raisable_bind h nofun fun v _ h =>
      raisable_bind h (raisable_spInc id (State.readReg_eq_ok hsp).1) fun _ _ => nofun

/-- What an instruction that completes leaves: the state after it, in terms of the state before it. -/
def Completed (i : Instr) (s t : State) : Prop :=
  match i with
  | .hlt => t = s.halt.jump 0
  | .ldi op1 imm => ∃ r, op1 = regOperand r ∧ t = (s.writeReg r imm).advance 3
  | .prn op1 => ∃ r, op1 = regOperand r ∧ s.isWritten r = true ∧ t = (s.emit (s.reg r)).advance 2
  | .add op1 op2 => ∃ a b, op1 = regOperand a ∧ op2 = regOperand b ∧ s.isWritten a = true ∧ s.isWritten b = true ∧
      t = (s.writeReg a (s.reg a + s.reg b)).advance 3
  | .mul op1 op2 => ∃ a b, op1 = regOperand a ∧ op2 = regOperand b ∧ s.isWritten a = true ∧ s.isWritten b = true ∧
      t = (s.writeReg a (s.reg a * s.reg b)).advance 3
  | .push op1 => ∃ r, op1 = regOperand r ∧ s.isWritten spIndex = true ∧ 0 < (s.reg spIndex).toNat ∧
      s.isWritten r = true ∧
      t = (s.pushed (if spIndex = r then BitVec.ofNat 8 ((s.reg spIndex).toNat - 1) else s.reg r)).advance 2
  | .pop op1 => ∃ r s1, op1 = regOperand r ∧ s.isWritten spIndex = true ∧
      s1 = s.writeReg r (s.byteAt (s.reg spIndex).toNat) ∧ (s1.reg spIndex).toNat < 255 ∧
      t = (s1.writeReg spIndex (BitVec.ofNat 8 ((s1.reg spIndex).toNat + 1))).advance 2
  | .call op1 => ∃ r, op1 = regOperand r ∧ s.isWritten spIndex = true ∧ 0 < (s.reg spIndex).toNat ∧
      s.isWritten r = true ∧ s.pc.toNat + 2 ≤ 255 ∧
      t = (s.pushed (BitVec.ofNat 8 (s.pc.toNat + 2))).jump
        (if spIndex = r then BitVec.ofNat 8 ((s.reg spIndex).toNat - 1) else s.reg r)
  | .ret => s.isWritten spIndex = true ∧ (s.reg spIndex).toNat < 255 ∧
      t = (s.writeReg spIndex (BitVec.ofNat 8 ((s.reg spIndex).toNat + 1))).jump (s.byteAt (s.reg spIndex).toNat)
  | .cmp op1 op2 => ∃ a b, op1 = regOperand a ∧ op2 = regOperand b ∧ s.isWritten a = true ∧ s.isWritten b = true ∧
      t = (s.writeFl (flOfFlags (compareFlags (s.reg a) (s.reg b)))).advance 3
  | .jmp op1 => ∃ r, op1 = regOperand r ∧ s.isWritten r = true ∧ t = s.jump (s.reg r)
  | .jeq op1 => ∃ r, op1 = regOperand r ∧ s.isWritten r = true ∧
      t = if s.equalFlag then s.jump (s.reg r) else s.advance 2
  | .jne op1 => ∃ r, op1 = regOperand r ∧ s.isWritten r = true ∧
      t = if (!s.equalFlag) then s.jump (s.reg r) else s.advance 2
  | .unrecognized byte => t = (s.diagnose (.unrecognizedOpcode s.pc byte)).advance 1

/-- Everything an instruction can do where it answers a next state: complete, or take a fault where it started. -/
theorem exec_eq_next {i : Instr} {s t : State} (h : exec i s = .next t) : Completed i s t ∨ FaultTaken i s t := by
  cases i
  case hlt => exact .inl (execHlt_eq_next h)
  case ldi => exact execLdi_eq_next h
  case prn => exact execPrn_eq_next h
  case add => exact execAdd_eq_next h
  case mul => exact execMul_eq_next h
  case push => exact execPush_eq_next h
  case pop => exact execPop_eq_next h
  case call => exact execCall_eq_next h
  case ret => exact execRet_eq_next h
  case cmp => exact execCmp_eq_next h
  case jmp => exact execJmp_eq_next h
  case jeq => exact execJeq_eq_next h
  case jne => exact execJne_eq_next h
  case unrecognized => exact .inl (execUnrecognized_eq_next h)

/-- Every meaning is a commit of some action, so `exec` answers a next state and never a fault or a refusal. -/
theorem exec_eq_commit (i : Instr) (s : State) : ∃ r, exec i s = s.commit r := by
  cases i
  case hlt => exact ⟨.ok (s.halt.jump 0), rfl⟩
  case unrecognized byte => exact ⟨.ok ((s.diagnose (.unrecognizedOpcode s.pc byte)).advance 1), rfl⟩
  all_goals exact ⟨_, rfl⟩

end Sys2Proof.Machine
end

