-- ==== Sys2Proof/Laws/PerInstr.lean ====
section
/-! SUPPORT. The statements made per instruction, one lemma per constructor. -/

namespace Sys2Proof.Laws.EncodedLength

/-- A well-formed instruction is encoded in 1 + operand count bytes (30_encoding.md R79). -/
def Statement (i : Instr) : Prop :=
  ∀ c : Config, i.wf c = true → (encodeWith c i).length = i.length

/-- The length of an instruction whose opcode byte is known. -/
theorem of_opcodeByte {i : Instr} {c : Config} {b : Byte} (hu : ∀ byte, i ≠ .unrecognized byte)
    (hb : opcodeByte c i.row = some b) : (encodeWith c i).length = i.length := by
  have he : encodeWith c i = b :: i.operandBytes := by
    cases i <;> simp_all [encodeWith]
  rw [he, List.length_cons, Instr.operandBytes_length, Instr.length, Nat.add_comm]

theorem hlt : Statement .hlt := fun _ _ => of_opcodeByte nofun rfl
theorem ldi (r i : Byte) : Statement (.ldi r i) := fun _ _ => of_opcodeByte nofun rfl
theorem prn (r : Byte) : Statement (.prn r) := fun _ _ => of_opcodeByte nofun rfl
theorem add (a b : Byte) : Statement (.add a b) := fun c h => by
  obtain ⟨o, ho⟩ := Option.isSome_iff_exists.1 (show c.addOpcode.isSome = true from h)
  exact of_opcodeByte nofun ho
theorem mul (a b : Byte) : Statement (.mul a b) := fun _ _ => of_opcodeByte nofun rfl
theorem push (r : Byte) : Statement (.push r) := fun _ _ => of_opcodeByte nofun rfl
theorem pop (r : Byte) : Statement (.pop r) := fun _ _ => of_opcodeByte nofun rfl
theorem call (r : Byte) : Statement (.call r) := fun _ _ => of_opcodeByte nofun rfl
theorem ret : Statement .ret := fun _ _ => of_opcodeByte nofun rfl
theorem cmp (a b : Byte) : Statement (.cmp a b) := fun _ _ => of_opcodeByte nofun rfl
theorem jmp (r : Byte) : Statement (.jmp r) := fun _ _ => of_opcodeByte nofun rfl
theorem jeq (r : Byte) : Statement (.jeq r) := fun _ _ => of_opcodeByte nofun rfl
theorem jne (r : Byte) : Statement (.jne r) := fun c h => by
  obtain ⟨o, ho⟩ := Option.isSome_iff_exists.1 (show c.jneOpcode.isSome = true from h)
  exact of_opcodeByte nofun ho
theorem unrecognized (opcode : Byte) : Statement (.unrecognized opcode) := fun _ _ => rfl

end Sys2Proof.Laws.EncodedLength
end

