-- ==== Sys2Proof/Tests/Slice0.lean ====
section
/-! SUPPORT. The model's own tests, each on one step and with its expected value from spec/95_test_vectors.md (named in the
comment) or worked out from the encoding tables; the ill-formed terms that the checks refuse; and for every statement with
hypotheses the witnesses that meet them. -/

namespace Sys2Proof.Tests

open Sys2Proof.Machine

/-- A running state as after reset but for its pc, its listed memory, some written registers and FL. -/
def probe (pc : PcWord) (mem : Memory) (regs : List (Fin 8 × Byte)) (fl : Byte) : State :=
  regs.foldl (fun s r => s.writeReg r.1 r.2) { State.reset with pc := pc, mem := mem, fl := fl }

/-- The next state, where there is one. -/
def nextState : Host.Outcome State Fault Refusal → Option State
  | .next t => some t
  | .fault _ => none
  | .refused _ => none

/-- What a test reads of the state after one step. -/
def after {α : Type} (s : State) (f : State → α) : Option α :=
  (nextState (step s)).map f

/-- The machine in which the table's literal reading holds: no ADD, no JNE. -/
def literalConfig : Config := ⟨none, none, false⟩

/-! ### Well-formedness: a term that each check refuses -/

theorem test_wf_add_without_opcode : (Instr.add 0 1).wf literalConfig = false := by decide
theorem test_wf_jne_without_opcode : (Instr.jne 0).wf literalConfig = false := by decide
theorem test_wf_unrecognized_of_a_row : (Instr.unrecognized 0x82).wf Config.default = false := by decide
theorem test_wf_every_other_term : (Instr.ldi 255 255).wf literalConfig = true := by decide
theorem test_config_add_takes_a_row : Config.wf ⟨some 0x82, some 0x56, true⟩ = false := by decide
theorem test_config_jne_takes_a_row : Config.wf ⟨some 0xA0, some 0x55, true⟩ = false := by decide
theorem test_config_add_equals_jne : Config.wf ⟨some 0xA0, some 0xA0, true⟩ = false := by decide
/-- The other parameter's byte of 30_encoding.md R73 is refused although no row of this machine carries it. -/
theorem test_config_takes_the_other_default :
    Config.wf ⟨none, some 0xA0, true⟩ = false ∧ Config.wf ⟨some 0x56, none, true⟩ = false := by decide
theorem test_config_default : Config.wf Config.default = true ∧ Config.wf literalConfig = true := by decide

/-! ### Decode: the bytes written out from 30_encoding.md R71 and R73 -/

theorem test_decode_hlt : decode [0b00000001] = .ok (.hlt, []) := by decide
theorem test_decode_ldi : decode [0b10000010, 0b00000000, 0b00001000] = .ok (.ldi 0 8, []) := by decide
theorem test_decode_prn : decode [0b01000111, 0b00000010] = .ok (.prn 2, []) := by decide
theorem test_decode_add : decode [0b10100000, 0b00000010, 0b00000101] = .ok (.add 2 5, []) := by decide
theorem test_decode_mul : decode [0b10100010, 0b00000000, 0b00000001] = .ok (.mul 0 1, []) := by decide
theorem test_decode_push : decode [0b01000101, 0b00000011] = .ok (.push 3, []) := by decide
theorem test_decode_pop : decode [0b01000110, 0b00000110] = .ok (.pop 6, []) := by decide
theorem test_decode_call : decode [0b01010000, 0b00000001] = .ok (.call 1, []) := by decide
theorem test_decode_ret : decode [0b00010001, 0b00000001] = .ok (.ret, [0b00000001]) := by decide
theorem test_decode_cmp : decode [0b10100111, 0b00000000, 0b11111111] = .ok (.cmp 0 255, []) := by decide
theorem test_decode_jmp : decode [0b01010100, 0b00100000] = .ok (.jmp 32, []) := by decide
theorem test_decode_jeq : decode [0b01010101, 0b00000011] = .ok (.jeq 3, []) := by decide
theorem test_decode_jne : decode [0b01010110, 0b00000011] = .ok (.jne 3, []) := by decide
theorem test_decode_unrecognized : decode [0b11111111, 0b01000111] = .ok (.unrecognized 255, [0b01000111]) := by decide
theorem test_decode_empty : decode [] = .error .noOpcode := by decide
theorem test_decode_short_operand : decode [0b01000111] = .error .noFirstOperand := by decide
theorem test_decode_short_second_operand : decode [0b10000010, 0b00000000] = .error .noSecondOperand := by decide
/-- V-ADD-9 and V-JNE-5: with the parameter none the byte is unrecognized. -/
theorem test_decode_literal_machine :
    decodeWith literalConfig [0xA0, 0, 1] = .ok (.unrecognized 0xA0, [0, 1]) ∧
    decodeWith literalConfig [0x56, 3] = .ok (.unrecognized 0x56, [3]) := by decide
/-- Byte 0 is the low byte of the table word, and bits above the given ones are 0. -/
theorem test_decode_table_word :
    decodeTableWord 24 0x080082 = some (.ldi 0 8) ∧ decodeTableWord 8 0x080082 = some (.ldi 0 0) := by decide

/-! ### One step of each instruction -/

/-- V-HLT-2. -/
theorem test_hlt_at_255 : after (probe 255 [(255, 0x01)] [] 0) (fun t => (t.run, t.pc)) = some (.halted, 0) := by decide
/-- V-LDI-4. -/
theorem test_ldi_ends_at_256 :
    after (probe 253 [(253, 0x82), (255, 0x11)] [] 0) (fun t => (t.reg 0, t.pc)) = some (0x11, 256) := by decide
/-- V-LDI-5. -/
theorem test_ldi_operand_beyond_memory :
    after (probe 254 [(254, 0x82)] [] 0) (fun t => (t.run, t.fault)) =
      some (.faulted, some ⟨.addressOutOfRange, 254, 256⟩) := by decide
/-- V-PRN-2. -/
theorem test_prn_sp : after (probe 0 [(0, 0x47), (1, 7)] [] 0) (fun t => (t.out, t.pc)) = some ([244], 2) := by decide
/-- V-PRN-3. -/
theorem test_prn_unwritten :
    after (probe 0 [(0, 0x47), (1, 2)] [] 0) (fun t => (t.fault, t.out)) =
      some (some ⟨.uninitializedRegister, 0, 2⟩, []) := by decide
/-- V-ADD-4. -/
theorem test_add_into_sp_wraps :
    after (probe 0 [(0, 0xA0), (1, 7)] [(0, 0x10)] 0) (fun t => (t.reg 7, t.pc, t.fl)) = some (0x04, 3, 0) := by decide
/-- V-ADD-8: R[a] is read before R[b]. -/
theorem test_add_both_unwritten :
    after (probe 0 [(0, 0xA0), (2, 1)] [] 0) (fun t => t.fault) = some (some ⟨.uninitializedRegister, 0, 0⟩) := by decide
/-- V-MUL-2. -/
theorem test_mul_keeps_low_bits :
    after (probe 0 [(0, 0xA2), (2, 1)] [(0, 0xFF), (1, 0xFF)] 0) (fun t => (t.reg 0, t.reg 1)) = some (0x01, 0xFF) := by
  decide
/-- V-MUL-4. -/
theorem test_mul_square : after (probe 0 [(0, 0xA2)] [(0, 7)] 0) (fun t => t.reg 0) = some 0x31 := by decide
/-- L1-2: 0x80 against 0x7F is greater in the unsigned order. -/
theorem test_cmp_unsigned :
    after (probe 0 [(0, 0xA7), (2, 1)] [(0, 0x80), (1, 0x7F)] 0b100) (fun t => t.fl) = some 0b010 := by decide
/-- V-CMP-5. -/
theorem test_cmp_fault_keeps_flags :
    after (probe 0 [(0, 0xA7), (2, 0xFF)] [(0, 1)] 0b010) (fun t => (t.fault, t.fl)) =
      some (some ⟨.invalidRegister, 0, 255⟩, 0b010) := by decide
/-- V-PUSH-2. -/
theorem test_push_sp :
    after (probe 0 [(0, 0x45), (1, 7)] [] 0) (fun t => (t.reg 7, t.byteAt 0xF3, t.pc)) = some (0xF3, 0xF3, 2) := by decide
/-- V-PUSH-5: InvalidRegister comes before the check of SP. -/
theorem test_push_order_of_faults :
    after (probe 0 [(0, 0x45), (1, 8)] [(7, 0)] 0) (fun t => t.fault) = some (some ⟨.invalidRegister, 0, 8⟩) := by decide
/-- V-POP-2. -/
theorem test_pop_sp :
    after (probe 0 [(0, 0x46), (1, 7), (0xF3, 0x10)] [(7, 0xF3)] 0) (fun t => t.reg 7) = some 0x11 := by decide
/-- V-POP-4: R0 is not written. -/
theorem test_pop_at_top :
    after (probe 0 [(0, 0x46), (255, 5)] [(7, 255)] 0) (fun t => (t.fault, t.isWritten 0)) =
      some (some ⟨.addressOutOfRange, 0, 256⟩, false) := by decide
/-- V-CALL-2. -/
theorem test_call_sp :
    after (probe 0x10 [(0x10, 0x50), (0x11, 7)] [] 0) (fun t => (t.reg 7, t.byteAt 0xF3, t.pc)) =
      some (0xF3, 0x12, 0xF3) := by decide
/-- V-CALL-3. -/
theorem test_call_at_254 :
    after (probe 254 [(254, 0x50), (255, 1)] [(1, 0)] 0) (fun t => (t.fault, t.reg 7)) =
      some (some ⟨.addressOutOfRange, 254, 256⟩, 0xF4) := by decide
/-- V-RET-1. -/
theorem test_ret :
    after (probe 0 [(0, 0x11), (0xF3, 8)] [(7, 0xF3)] 0) (fun t => (t.reg 7, t.pc)) = some (0xF4, 8) := by decide
/-- V-RET-2. -/
theorem test_ret_at_top :
    after (probe 0 [(0, 0x11), (255, 8)] [(7, 255)] 0) (fun t => t.fault) =
      some (some ⟨.addressOutOfRange, 0, 256⟩) := by decide
/-- V-JMP-1. -/
theorem test_jmp : after (probe 0 [(0, 0x54), (1, 3)] [(3, 0x10)] 0) (fun t => t.pc) = some 0x10 := by decide
/-- V-JEQ-1 and V-JEQ-2. -/
theorem test_jeq :
    after (probe 0 [(0, 0x55), (1, 3)] [(3, 0x17)] 0b001) (fun t => t.pc) = some 0x17 ∧
    after (probe 0 [(0, 0x55), (1, 3)] [(3, 0x17)] 0b100) (fun t => t.pc) = some 2 := by decide
/-- V-JEQ-4: the register is read even when the branch is not taken. -/
theorem test_jeq_unwritten :
    after (probe 0 [(0, 0x55), (1, 3)] [] 0b100) (fun t => t.fault) = some (some ⟨.uninitializedRegister, 0, 3⟩) := by
  decide
/-- V-JNE-2 and V-JNE-3. -/
theorem test_jne :
    after (probe 0 [(0, 0x56), (1, 3)] [(3, 0x0C)] 0b010) (fun t => t.pc) = some 0x0C ∧
    after (probe 0 [(0, 0x56), (1, 3)] [(3, 0x0C)] 0b001) (fun t => t.pc) = some 2 := by decide
/-- V-UNK-3. -/
theorem test_unrecognized_at_255 :
    after (probe 255 [(255, 0xC3)] [] 0) (fun t => (t.pc, t.diag, t.run)) =
      some (256, [.unrecognizedOpcode 255 0xC3], .running) := by decide

/-! ### The machine around the instructions -/

/-- V-UNK-4, with the status port's codes of 10_state.md R38 and 60_exceptions.md R150. -/
theorem test_fetch_at_256 : after (probe 256 [] [] 0) State.status = some (2, some (1, 256, 256)) := by decide
/-- 40_cycle.md R97: the bytes beyond 255 are absent. -/
theorem test_trace_at_255 :
    after (probe 255 [(255, 0x01)] [] 0b001) (fun t => t.trace) = some [⟨255, 0b001, some 0x01, none, none⟩] := by decide
theorem test_reset_memory_wf : State.reset.mem.wf = true := by decide
theorem test_write_of_zero_unlists : Memory.writeByte [(3, 7), (5, 9)] 3 0 = [(5, 9)] := by decide
/-- The word 82 00 08 (LDI R0, 8) placed where the first step after reset fetches. -/
theorem test_with_fetch_word :
    after (State.reset.withFetchWord 24 0x080082) (fun t => (t.reg 0, t.isWritten 0, t.pc)) = some (8, true, 3) := by decide
/-- 20_memory.md R64: the image of L1-7's one byte, launched. -/
theorem test_launch : (nextState (State.launch [0xFF])).map (fun s => (s.mem, s.pc, s.run)) =
    some ([(0, 0xFF)], 0, .running) := by decide

/-! ### Witnesses: for each statement with hypotheses, inputs that meet them, at the boundary of each clause -/

theorem witness_StepRunsTheDecodedInstruction :
    (probe 253 [(253, 0x82)] [] 0).run = .running ∧
    decode ((probe 253 [(253, 0x82)] [] 0).codeBytes 253) = .ok (.ldi 0 0, []) ∧
    (probe 255 [(255, 0x01)] [] 0).run = .running ∧
    decode ((probe 255 [(255, 0x01)] [] 0).codeBytes 255) = .ok (.hlt, []) := by decide

theorem witness_OnlyARunningMachineSteps :
    State.reset.run = .running ∧ State.reset.halt.run = .halted ∧
    (State.reset.takeFault ⟨.addressOutOfRange, 256⟩).run = .faulted := by decide

theorem witness_FetchBeyondMemoryTakesAddressOutOfRange :
    ((probe 256 [] [] 0).run = .running ∧ (probe 256 [] [] 0).pc.toNat = 256) ∧
    ((probe 254 [(254, 0x82)] [] 0).run = .running ∧
      255 < 254 + operandCount (rowOf Config.default ((probe 254 [(254, 0x82)] [] 0).byteAt 254))) ∧
    ((probe 253 [(253, 0x82)] [] 0).run = .running ∧
      253 + operandCount (rowOf Config.default ((probe 253 [(253, 0x82)] [] 0).byteAt 253)) ≤ 255) := by decide

theorem witness_HltHaltsAndClearsThePc :
    ∃ t, exec .hlt State.reset = .next t ∧ State.reset.run ≠ .halted ∧ t.run = .halted :=
  ⟨_, rfl, by decide, rfl⟩

theorem witness_LdiLoadsTheImmediate :
    ((7 : Byte) = regOperand 7 ∧ (probe 255 [] [] 0).pc.toNat ≤ 255) ∧ 7 < (8 : Byte).toNat ∧
    ((probe 255 [(255, 0x82)] [] 0).run = .running ∧
      (probe 255 [(255, 0x82)] [] 0).byteAt (probe 255 [(255, 0x82)] [] 0).pc.toNat = 0b10000010 ∧
      (probe 255 [(255, 0x82)] [] 0).pc.toNat = 255) := by decide

/-- For PRN, JMP, JEQ and JNE: a written register, a byte above 7, an unwritten register. -/
theorem witness_OneOperandStatements :
    ((7 : Byte) = regOperand 7 ∧ (probe 255 [] [] 0).isWritten 7 = true ∧ (probe 255 [] [] 0).pc.toNat ≤ 255) ∧
    7 < (8 : Byte).toNat ∧ ((0 : Byte) = regOperand 0 ∧ (probe 255 [] [] 0).isWritten 0 = false) := by decide

/-- For ADD, MUL and CMP: two written registers, and each of the four faults. -/
theorem witness_TwoOperandStatements :
    ((7 : Byte) = regOperand 7 ∧ (6 : Byte) = regOperand 6 ∧ (probe 255 [] [(6, 1)] 0).isWritten 7 = true ∧
      (probe 255 [] [(6, 1)] 0).isWritten 6 = true ∧ (probe 255 [] [(6, 1)] 0).pc.toNat ≤ 255) ∧
    7 < (8 : Byte).toNat ∧ ((7 : Byte).toNat ≤ 7 ∧ 7 < (255 : Byte).toNat) ∧
    ((0 : Byte) = regOperand 0 ∧ State.reset.isWritten 0 = false) ∧
    ((7 : Byte) = regOperand 7 ∧ State.reset.isWritten 7 = true ∧ State.reset.isWritten 0 = false) := by decide

/-- PUSH: completing at SP = 1 with the register SP itself, and each fault. -/
theorem witness_PushStoresBelowTheStackPointer :
    ((probe 255 [] [(7, 1)] 0).isWritten spIndex = true ∧ (probe 255 [] [(7, 1)] 0).mem.wf = true ∧
      (7 : Byte) = regOperand 7 ∧ (probe 255 [] [(7, 1)] 0).isWritten 7 = true ∧
      0 < ((probe 255 [] [(7, 1)] 0).reg spIndex).toNat ∧ (probe 255 [] [(7, 1)] 0).pc.toNat ≤ 255) ∧
    7 < (8 : Byte).toNat ∧
    ((7 : Byte).toNat ≤ 7 ∧ ((probe 0 [] [(7, 0)] 0).reg spIndex).toNat = 0) ∧
    ((0 : Byte) = regOperand 0 ∧ (probe 0 [] [(7, 1)] 0).isWritten 0 = false) := by decide

/-- POP: completing at SP = 254 into R0, completing into SP from the byte 254, and each fault. -/
theorem witness_PopLoadsFromTheStackPointer :
    ((0 : Byte) = regOperand 0 ∧ (0 : Fin 8) ≠ spIndex ∧ (probe 255 [] [(7, 254)] 0).isWritten spIndex = true ∧
      ((probe 255 [] [(7, 254)] 0).reg spIndex).toNat < 255 ∧ (probe 255 [] [(7, 254)] 0).pc.toNat ≤ 255) ∧
    ((7 : Byte) = regOperand spIndex ∧
      ((probe 255 [(255, 254)] [(7, 255)] 0).byteAt ((probe 255 [(255, 254)] [(7, 255)] 0).reg spIndex).toNat).toNat <
        255) ∧
    7 < (8 : Byte).toNat ∧
    ((6 : Byte).toNat < 7 ∧ ((probe 0 [] [(7, 255)] 0).reg spIndex).toNat = 255) ∧
    ((7 : Byte).toNat = 7 ∧
      ((probe 0 [(5, 255)] [(7, 5)] 0).byteAt ((probe 0 [(5, 255)] [(7, 5)] 0).reg spIndex).toNat).toNat = 255) := by
  decide

/-- CALL: completing at pc = 253 and SP = 1, and each fault. -/
theorem witness_CallPushesTheReturnAddress :
    ((probe 253 [] [(7, 1)] 0).isWritten spIndex = true ∧ (probe 253 [] [(7, 1)] 0).mem.wf = true ∧
      (7 : Byte) = regOperand 7 ∧ 0 < ((probe 253 [] [(7, 1)] 0).reg spIndex).toNat ∧
      (probe 253 [] [(7, 1)] 0).pc.toNat ≤ 253) ∧
    7 < (8 : Byte).toNat ∧
    ((7 : Byte).toNat ≤ 7 ∧ ((probe 253 [] [(7, 0)] 0).reg spIndex).toNat = 0) ∧
    (0 < ((probe 254 [] [(7, 1)] 0).reg spIndex).toNat ∧ (probe 254 [] [(7, 1)] 0).pc.toNat = 254) ∧
    ((0 : Byte) = regOperand 0 ∧ (probe 253 [] [(7, 1)] 0).isWritten 0 = false) := by decide

theorem witness_RetPopsThePc :
    ((probe 0 [] [(7, 254)] 0).isWritten spIndex = true ∧ ((probe 0 [] [(7, 254)] 0).reg spIndex).toNat < 255) ∧
    ((probe 0 [] [(7, 255)] 0).isWritten spIndex = true ∧ ((probe 0 [] [(7, 255)] 0).reg spIndex).toNat = 255) := by
  decide

/-- For the statements on unrecognized bytes. -/
theorem witness_UnrecognizedStatements :
    rowOf Config.default 0x00 = .unrecognized ∧ rowOf Config.default 0xFF = .unrecognized ∧
    (probe 255 [] [] 0).pc.toNat ≤ 255 := by decide

theorem witness_FrameOfRegisterWriters :
    (∃ t, exec (.ldi 7 1) State.reset = .next t) ∧ (∃ t, exec (.add 7 7) State.reset = .next t) ∧
    (∃ t, exec (.mul 7 7) State.reset = .next t) :=
  ⟨⟨_, rfl⟩, ⟨_, rfl⟩, ⟨_, rfl⟩⟩

theorem witness_FrameOfInstructionsThatWriteNoRegister :
    (∃ t, exec .hlt State.reset = .next t) ∧ (∃ t, exec (.prn 7) State.reset = .next t) ∧
    (∃ t, exec (.cmp 7 7) State.reset = .next t) ∧ (∃ t, exec (.jmp 7) State.reset = .next t) ∧
    (∃ t, exec (.jeq 7) State.reset = .next t) ∧ (∃ t, exec (.jne 7) State.reset = .next t) ∧
    (∃ t, exec (.unrecognized 0) State.reset = .next t) :=
  ⟨⟨_, rfl⟩, ⟨_, rfl⟩, ⟨_, rfl⟩, ⟨_, rfl⟩, ⟨_, rfl⟩, ⟨_, rfl⟩, ⟨_, rfl⟩⟩

theorem witness_FrameOfPopAndRet :
    (∃ t, exec (.pop 7) State.reset = .next t) ∧ (∃ t, exec .ret State.reset = .next t) :=
  ⟨⟨_, rfl⟩, ⟨_, rfl⟩⟩

theorem witness_FrameOfPushAndCall :
    (∃ t, exec (.push 7) State.reset = .next t) ∧ (∃ t, exec (.call 7) State.reset = .next t) ∧
    ∃ s1, State.reset.spDec = .ok s1 ∧ 0xF3 = (s1.reg spIndex).toNat :=
  ⟨⟨_, rfl⟩, ⟨_, rfl⟩, ⟨_, rfl, by decide⟩⟩

/-- A CMP at pc that changes FL, and an instruction run under two values of FL. -/
theorem witness_OnlyCmpWritesTheFlags :
    (∃ t, stepWith Config.default (probe 0 [(0, 0xA7), (1, 7), (2, 7)] [] 0) = .next t ∧
      t.fl ≠ (probe 0 [(0, 0xA7), (1, 7), (2, 7)] [] 0).fl) ∧
    (∃ t, exec (.jeq 7) State.reset = .next t) ∧ ∃ t, exec (.jeq 7) (State.reset.writeFl 1) = .next t :=
  ⟨⟨_, rfl, by decide⟩, ⟨_, rfl⟩, ⟨_, rfl⟩⟩

theorem witness_OnlyTheEqualFlagIsRead : (0b100 : Byte).getLsbD 0 = (probe 0 [] [] 0b010).fl.getLsbD 0 := by decide

theorem witness_MemoryChangesOnlyBelowTheStackPointer :
    ∃ t, stepWith Config.default (probe 0 [(0, 0x45), (1, 7)] [] 0) = .next t ∧
      t.byteAt 0xF3 ≠ (probe 0 [(0, 0x45), (1, 7)] [] 0).byteAt 0xF3 :=
  ⟨_, rfl, by decide⟩

/-- A faulting step from a state that meets the invariant: for both statements on faults. -/
theorem witness_FaultStatements :
    (probe 256 [] [] 0).inv = true ∧
    ∃ t, stepWith Config.default (probe 256 [] [] 0) = .next t ∧ t.run = .faulted :=
  ⟨by decide, _, rfl, rfl⟩

theorem witness_PcPasses255OnlySequentially :
    (probe 255 [(255, 0xC3)] [] 0).inv = true ∧ (probe 255 [(255, 0xC3)] [] 0).pc.toNat ≤ 255 ∧
    ∃ t, stepWith Config.default (probe 255 [(255, 0xC3)] [] 0) = .next t ∧ 255 < t.pc.toNat :=
  ⟨by decide, by decide, _, rfl, by decide⟩

/-- A step from a state that meets the invariant: for the statements on the ports, the trace and the invariant. -/
theorem witness_StepStatements :
    State.reset.inv = true ∧ State.reset.eraseTrace = State.reset.eraseTrace ∧
    (∃ t, stepWith { Config.default with traceEnabled := true } State.reset = .next t) ∧
    ∃ t, stepWith { Config.default with traceEnabled := false } State.reset = .next t :=
  ⟨by decide, rfl, ⟨_, rfl⟩, ⟨_, rfl⟩⟩

theorem witness_OpcodeMapMatchesAtMostOneRow :
    Config.default.opcodesDistinct = true ∧ opcodeByte Config.default .jne = some 0x56 ∧
    (literalConfig.opcodesDistinct = true ∧ ∀ row ∈ opcodeRows, opcodeByte literalConfig row ≠ some 0x56) := by decide

/-- The parameters present, absent, and moved to other bytes. -/
theorem witness_ParametersDecideAddAndJne :
    (Config.default.opcodesDistinct = true ∧ Config.default.addOpcode = some 0xA0 ∧
      Config.default.jneOpcode = some 0x56) ∧
    (literalConfig.opcodesDistinct = true ∧ literalConfig.addOpcode = none ∧ literalConfig.jneOpcode = none) ∧
    (literalConfig.wf = true ∧ literalConfig.addOpcode ≠ some 0xA0 ∧ literalConfig.jneOpcode ≠ some 0x56) ∧
    (Config.wf ⟨some 0xC0, some 0x40, true⟩ = true ∧ some 0xC0 ≠ some (0xA0 : Byte)) := by decide

theorem witness_DecodeInvertsEncode :
    Config.default.opcodesDistinct = true ∧ (Instr.add 255 8).wf Config.default = true ∧
    (Instr.unrecognized 0).wf Config.default = true := by decide

theorem witness_EncodeInvertsDecode :
    decodeWith Config.default [0x56, 0xFF, 0x01] = .ok (.jne 255, [0x01]) := by decide

theorem witness_MemReadChecksTheAddress :
    (255 ≤ 255 ∧ (255 : Int) = (255 : Nat)) ∧ (-1 : Int) < 0 ∧ 255 < (256 : Int) := by decide

theorem witness_MemoriesThatReadAlikeAreEqual :
    Memory.wf (Memory.writeByte (Memory.writeByte [] 3 7) 2 9) = true ∧ Memory.wf [(2, 9), (3, 7)] = true ∧
    ∀ a, Memory.readByte (Memory.writeByte (Memory.writeByte [] 3 7) 2 9) a = Memory.readByte [(2, 9), (3, 7)] a :=
  ⟨by decide, by decide, fun _ => rfl⟩

theorem witness_WrittenByteIsFetchedNext :
    State.reset.mem.wf = true ∧ ∃ t, State.reset.memWrite 255 0x01 = .ok t :=
  ⟨by decide, _, rfl⟩

theorem witness_LaunchPlacesTheImage :
    (List.replicate 256 (0x01 : Byte)).length ≤ 256 ∧ 256 < (List.replicate 257 (0x01 : Byte)).length := by
  rw [List.length_replicate, List.length_replicate]; decide

theorem witness_AluRaisesOnlyOutsideItsKinds : aluCmp ≠ 0b11 ∧ (3 : BitVec 2) = 0b11 := by decide

/-- R6 at SP = 1, and R7 with v = 2 and M[0] = 254. -/
theorem witness_PushThenPopRestores :
    ((probe 0 [] [(7, 1)] 0).isWritten spIndex = true ∧ (probe 0 [] [(7, 1)] 0).mem.wf = true ∧
      (6 : Fin 8) ≠ spIndex ∧ 0 < ((probe 0 [] [(7, 1)] 0).reg spIndex).toNat) ∧
    ((probe 0 [(0, 254)] [] 0).mem.wf = true ∧ (7 : Fin 8) = spIndex ∧ 1 < (2 : Byte).toNat ∧
      ((probe 0 [(0, 254)] [] 0).byteAt 0).toNat < 255) := by decide

theorem witness_RetReturnsAfterItsCall :
    State.reset.mem.wf = true ∧ State.reset.run = .running ∧
    ∃ t, exec (.call 7) State.reset = .next t ∧ t.run = .running ∧ t.isWritten spIndex = true :=
  ⟨by decide, by decide, _, rfl, by decide, by decide⟩

theorem witness_UnrecognizedBytesToTheEndOfMemoryEndInAFault :
    (State.reset.run = .running ∧ State.reset.pc.toNat ≤ 256 ∧
      ∀ a, State.reset.pc.toNat ≤ a → a ≤ 255 → rowOf Config.default (State.reset.byteAt a) = .unrecognized) ∧
    ((probe 256 [] [] 0).run = .running ∧ (probe 256 [] [] 0).pc.toNat ≤ 256) :=
  ⟨⟨rfl, by decide, fun _ _ _ => rfl⟩, by decide⟩

/-- Each run state with and without a record, and a record of each cause. -/
theorem witness_StatusPortShowsTheNumericCodes :
    (State.reset.run = .running ∧ State.reset.fault = none) ∧ State.reset.halt.run = .halted ∧
    (State.reset.takeFault ⟨.addressOutOfRange, -1⟩).run = .faulted ∧
    (State.reset.takeFault ⟨.addressOutOfRange, -1⟩).fault = some ⟨.addressOutOfRange, 0, -1⟩ ∧
    (State.reset.takeFault ⟨.invalidRegister, 8⟩).fault = some ⟨.invalidRegister, 0, 8⟩ ∧
    (State.reset.takeFault ⟨.unsupportedOperation, 3⟩).fault = some ⟨.unsupportedOperation, 0, 3⟩ ∧
    (State.reset.takeFault ⟨.uninitializedRegister, 6⟩).fault = some ⟨.uninitializedRegister, 0, 6⟩ := by decide

theorem witness_ParametersDifferFromEveryOtherOpcode :
    Config.wf ⟨some 0xA0, none, true⟩ = true ∧ Config.wf ⟨none, some 0x56, true⟩ = true := by decide

end Sys2Proof.Tests
end

section
namespace Sys2Proof.Machine

/-! ### An address outside memory (20_memory.md R52) -/

/-- The failed check raises before the continuation runs, so what the instruction would do with the byte is immaterial. -/
theorem State.commit_memRead_bind_of_not_inRange {addr : Int} (h : ¬ inRange addr) (s : State)
    (f : Byte → Except Raise State) :
    s.commit (s.memRead addr >>= f) = .next (s.takeFault ⟨.addressOutOfRange, addr⟩) := by
  rw [State.memRead_of_not_inRange h]
  rfl

/-- Settles O41: the address is checked as an integer, and a raise is the fault whatever follows it. -/
theorem memReadChecksTheAddress : Obligations.MemReadChecksTheAddress := by
  intro s addr
  constructor
  · rintro a ha rfl
    have hr : inRange (a : Int) := ⟨by omega, by omega⟩
    rw [State.memRead_of_inRange hr, Int.toNat_natCast]
  · intro hout
    have hr : ¬ inRange addr := by rintro ⟨hlo, hhi⟩; omega
    exact ⟨State.memRead_of_not_inRange hr s, State.commit_memRead_bind_of_not_inRange hr s⟩

end Sys2Proof.Machine
end

section
namespace Sys2Proof

/-! ### At most one row carries a byte (30_encoding.md R74) -/

/-- A parameter moves the bytes of ADD and JNE only. -/
theorem opcodeByte_eq_default {row : Row} (ha : row ≠ .add) (hj : row ≠ .jne) (c : Config) :
    opcodeByte c row = opcodeByte Config.default row := by
  cases row
  case add => exact absurd rfl ha
  case jne => exact absurd rfl hj
  all_goals rfl

/-- The three kinds of rows that carry a byte: ADD and JNE by their parameters, and the rows that no parameter moves. -/
theorem opcodeByte_eq_some {c : Config} {row : Row} {b : Byte} (h : opcodeByte c row = some b) :
    (row = .add ∧ c.addOpcode = some b) ∨ (row = .jne ∧ c.jneOpcode = some b) ∨
      (b ∈ fixedOpcodes ∧ row ∈ opcodeRows ∧ opcodeByte Config.default row = some b) := by
  by_cases ha : row = .add
  · subst ha; exact .inl ⟨rfl, h⟩
  by_cases hj : row = .jne
  · subst hj; exact .inr (.inl ⟨rfl, h⟩)
  have hmem : row ∈ opcodeRows := mem_opcodeRows (by rintro rfl; cases h)
  rw [opcodeByte_eq_default ha hj] at h
  exact .inr (.inr ⟨List.mem_filterMap.2 ⟨row, hmem, by simp [ha, hj, h]⟩, hmem, h⟩)

/-- What `Config.opcodesDistinct` says of the parameters. -/
theorem Config.opcodesDistinct_iff {c : Config} :
    c.opcodesDistinct = true ↔
      (∀ b ∈ fixedOpcodes, c.addOpcode ≠ some b ∧ c.jneOpcode ≠ some b) ∧
      ∀ b, c.addOpcode = some b → c.jneOpcode ≠ some b := by
  unfold Config.opcodesDistinct
  cases c.addOpcode with
  | none => simp
  | some a => simp [@eq_comm _ (some a)]

/-- Under the default parameters no two rows of the opcode map carry one byte. -/
theorem opcodeByte_default_injOn :
    ∀ row ∈ opcodeRows, ∀ row' ∈ opcodeRows,
      opcodeByte Config.default row = opcodeByte Config.default row' → row = row' := by
  decide

theorem opcodeByte_injective {c : Config} (hc : c.opcodesDistinct = true) {row row' : Row} {b : Byte}
    (h : opcodeByte c row = some b) (h' : opcodeByte c row' = some b) : row = row' := by
  obtain ⟨hfixed, haddJne⟩ := Config.opcodesDistinct_iff.1 hc
  rcases opcodeByte_eq_some h with ⟨rfl, hb⟩ | ⟨rfl, hb⟩ | ⟨hmem, hrow, hb⟩ <;>
    rcases opcodeByte_eq_some h' with ⟨rfl, hb'⟩ | ⟨rfl, hb'⟩ | ⟨hmem', hrow', hb'⟩
  case inl.inl => rfl
  case inl.inr.inl => exact absurd hb' (haddJne b hb)
  case inl.inr.inr => exact absurd hb (hfixed b hmem').1
  case inr.inl.inl => exact absurd hb (haddJne b hb')
  case inr.inl.inr.inl => rfl
  case inr.inl.inr.inr => exact absurd hb (hfixed b hmem').2
  case inr.inr.inl => exact absurd hb' (hfixed b hmem).1
  case inr.inr.inr.inl => exact absurd hb' (hfixed b hmem).2
  case inr.inr.inr.inr => exact opcodeByte_default_injOn row hrow row' hrow' (hb.trans hb'.symm)

/-- The row that carries a byte is the one the byte decodes to. -/
theorem rowOf_eq_of_opcodeByte {c : Config} (hc : c.opcodesDistinct = true) {row : Row} {b : Byte}
    (h : opcodeByte c row = some b) : rowOf c b = row := by
  rcases rowOf_cases c b with hrow | ⟨-, hnone⟩
  · exact opcodeByte_injective hc hrow h
  · exact absurd h (hnone row)

theorem rowOf_eq_unrecognized_iff {c : Config} {b : Byte} :
    rowOf c b = .unrecognized ↔ ∀ row, opcodeByte c row ≠ some b := by
  rcases rowOf_cases c b with hrow | ⟨hrow, hnone⟩
  · refine ⟨fun hu => ?_, fun hnone => absurd hrow (hnone _)⟩
    rw [hu] at hrow
    cases hrow
  · exact iff_of_true hrow hnone

/-- Where both operand bytes are there, the row of the opcode byte takes its operand count of them. -/
theorem decodeWith_two_bytes (c : Config) (b op1 op2 : Byte) (rest : List Byte) :
    decodeWith c (b :: op1 :: op2 :: rest) =
      .ok (instrOf (rowOf c b) b op1 op2, (op1 :: op2 :: rest).drop (operandCount (rowOf c b))) := by
  simp only [decodeWith]
  cases rowOf c b <;> rfl

/-- Settles O36: the parameters' bytes differ from the fixed ones and from each other, so a byte names one row. -/
theorem opcodeMapMatchesAtMostOneRow : Obligations.OpcodeMapMatchesAtMostOneRow := by
  intro c b hc
  refine ⟨fun row row' => opcodeByte_injective hc, fun row hrow => ?_, rowOf_eq_unrecognized_iff.2⟩
  have hrowOf : rowOf c b = row := rowOf_eq_of_opcodeByte hc hrow
  refine ⟨hrowOf, fun op1 op2 rest => ?_⟩
  rw [decodeWith_two_bytes, hrowOf]

/-! ### Unrecognized bytes (30_encoding.md R77) -/

theorem decodeWith_of_unrecognized {c : Config} {b : Byte} (h : rowOf c b = .unrecognized) (rest : List Byte) :
    decodeWith c (b :: rest) = .ok (.unrecognized b, rest) := by
  simp only [decodeWith, h]
  rfl

theorem rowOf_ne_unrecognized_iff {c : Config} {b : Byte} :
    rowOf c b ≠ .unrecognized ↔ b ∈ opcodeRows.filterMap (opcodeByte c) := by
  rw [List.mem_filterMap]
  constructor
  · exact fun h => ⟨rowOf c b, mem_opcodeRows h, opcodeByte_rowOf h⟩
  · rintro ⟨row, -, hrow⟩ hu
    exact rowOf_eq_unrecognized_iff.1 hu row hrow

/-- The numbers whose byte some row carries are, in another order, the bytes of the opcode map. -/
theorem recognized_perm_opcodes {c : Config} (hnodup : (opcodeRows.filterMap (opcodeByte c)).Nodup) :
    ((List.range 256).filter fun n => !decide (rowOf c (BitVec.ofNat 8 n) = .unrecognized)).Perm
      ((opcodeRows.filterMap (opcodeByte c)).map BitVec.toNat) := by
  have hmap := hnodup.map fun x y => BitVec.eq_of_toNat_eq (x := x) (y := y)
  refine (List.perm_ext_iff_of_nodup (List.nodup_range.filter _) hmap).2 fun n => ?_
  simp only [List.mem_filter, List.mem_range, Bool.not_eq_true', decide_eq_false_iff_not,
    rowOf_ne_unrecognized_iff, List.mem_map]
  constructor
  · rintro ⟨hn, hmem⟩
    exact ⟨_, hmem, (BitVec.toNat_ofNat n 8).trans (Nat.mod_eq_of_lt hn)⟩
  · rintro ⟨b, hmem, rfl⟩
    exact ⟨b.isLt, by rwa [BitVec.ofNat_toNat, BitVec.setWidth_eq]⟩

/-- The 13 bytes of the default opcode map leave 256 - 13 others. -/
theorem unrecognized_default_count :
    ((List.range 256).filter fun n => rowOf Config.default (BitVec.ofNat 8 n) = .unrecognized).length = 243 := by
  have hsplit := List.length_eq_length_filter_add (l := List.range 256)
    fun n => decide (rowOf Config.default (BitVec.ofNat 8 n) = .unrecognized)
  have hrecognized := (recognized_perm_opcodes (c := Config.default) (by decide)).length_eq
  have h13 : ((opcodeRows.filterMap (opcodeByte Config.default)).map BitVec.toNat).length = 13 := by decide
  rw [List.length_range, hrecognized, h13] at hsplit
  omega

theorem Machine.exec_unrecognized (b : Byte) (s : Machine.State) :
    Machine.exec (.unrecognized b) s = .next ((s.diagnose (.unrecognizedOpcode s.pc b)).advance 1) := rfl

/-- Settles O37: no row carries the byte, so it takes no operand, and its meaning advances the pc by its one byte. -/
theorem unrecognizedBytesAreThe243Others : Obligations.UnrecognizedBytesAreThe243Others := by
  refine ⟨fun c b => rowOf_eq_unrecognized_iff, unrecognized_default_count, by decide, by decide,
    fun c b rest h => decodeWith_of_unrecognized h rest, fun b s hpc => ⟨_, Machine.exec_unrecognized b s, ?_⟩⟩
  have hlt : s.pc.toNat + 1 < 2 ^ 9 := by omega
  rw [Machine.State.advance_pc, BitVec.toNat_ofNat, Machine.State.diagnose_pc, Nat.mod_eq_of_lt hlt]

end Sys2Proof
end

section
namespace Sys2Proof.Machine

/-! ### Where there is a step (40_cycle.md R90) -/

theorem stepWith_of_halted {s : State} (h : s.run = .halted) (c : Config) : stepWith c s = .fault .halted := by
  simp [stepWith, h]

theorem stepWith_of_faulted {s : State} (h : s.run = .faulted) (c : Config) : stepWith c s = .fault .faulted := by
  simp [stepWith, h]

theorem stepWith_of_fetch_ok {c : Config} {s : State} {i : Instr} (hr : s.run = .running)
    (hf : (s.emitTrace c).fetchInstr c = .ok i) : stepWith c s = exec i (s.emitTrace c) := by
  simp [stepWith, hr, hf]

theorem stepWith_of_fetch_error {c : Config} {s : State} {e : Raise} (hr : s.run = .running)
    (hf : (s.emitTrace c).fetchInstr c = .error e) : stepWith c s = .next ((s.emitTrace c).takeFault e) := by
  simp [stepWith, hr, hf]

/-- A raise commits to the Faulted state, which is a next state (60_exceptions.md R151). -/
theorem State.exists_commit_eq_next (s : State) (r : Except Raise State) : ∃ t, s.commit r = .next t := by
  cases r with
  | ok t => exact ⟨t, rfl⟩
  | error e => exact ⟨s.takeFault e, rfl⟩

theorem exists_exec_eq_next (i : Instr) (s : State) : ∃ t, exec i s = .next t := by
  obtain ⟨r, hr⟩ := exec_eq_commit i s
  rw [hr]
  exact s.exists_commit_eq_next r

theorem exists_stepWith_eq_next {s : State} (hr : s.run = .running) (c : Config) : ∃ t, stepWith c s = .next t := by
  cases hf : (s.emitTrace c).fetchInstr c with
  | ok i =>
    rw [stepWith_of_fetch_ok hr hf]
    exact exists_exec_eq_next i _
  | error e => exact ⟨_, stepWith_of_fetch_error hr hf⟩

/-- Settles O5: a raise, of the fetch or of the instruction, still answers a next state; only a terminal run state stops. -/
theorem onlyARunningMachineSteps : Obligations.OnlyARunningMachineSteps := by
  intro c s
  refine ⟨fun hr => exists_stepWith_eq_next hr c, ?_⟩
  rintro (hr | hr) t ht
  · rw [stepWith_of_halted hr] at ht
    cases ht
  · rw [stepWith_of_faulted hr] at ht
    cases ht

end Sys2Proof.Machine
end

section
namespace Sys2Proof.Machine

/-! ### An operand beyond memory (40_cycle.md R93) -/

/-- Whichever operand byte lies at 256, the first address that fails is 256. -/
theorem State.fetchOperands_beyond {s : State} {n : Nat} (hn : n ≤ 2) (hpc : s.pc.toNat ≤ 255)
    (h : 255 < s.pc.toNat + n) : s.fetchOperands n = .error ⟨.addressOutOfRange, 256⟩ := by
  have h256 : s.memRead 256 = .error ⟨.addressOutOfRange, 256⟩ := State.memRead_of_not_inRange (by decide) s
  have h255 : s.memRead 255 = .ok (s.byteAt 255) := State.memRead_of_inRange (by decide) s
  match n with
  | 0 => omega
  | 1 =>
    have hp : s.pc.toNat = 255 := by omega
    simp [State.fetchOperands, hp, h256, bind, Except.bind]
  | 2 =>
    obtain hp | hp : s.pc.toNat = 254 ∨ s.pc.toNat = 255 := by omega
    · simp [State.fetchOperands, hp, h255, h256, bind, Except.bind]
    · simp [State.fetchOperands, hp, h256, bind, Except.bind]
  | _ + 3 => omega

/-- With the opcode inside memory, a raise of the operand fetch is the raise of the whole fetch. -/
theorem State.fetchInstr_of_operands_error {c : Config} {s : State} {e : Raise} (hpc : s.pc.toNat ≤ 255)
    (h : s.fetchOperands (operandCount (rowOf c (s.byteAt s.pc.toNat))) = .error e) :
    s.fetchInstr c = .error e := by
  have hir : s.memRead s.pc.toNat = .ok (s.byteAt s.pc.toNat) :=
    State.memRead_of_inRange ⟨by omega, by omega⟩ s
  simp [State.fetchInstr, hir, h, bind, Except.bind]

theorem operandCount_le_two (row : Row) : operandCount row ≤ 2 := by
  cases row <;> decide

theorem stepWith_of_operand_beyond {c : Config} {s : State} (hr : s.run = .running) (hpc : s.pc.toNat ≤ 255)
    (h : 255 < s.pc.toNat + operandCount (rowOf c (s.byteAt s.pc.toNat))) :
    stepWith c s = .next ((s.emitTrace c).takeFault ⟨.addressOutOfRange, 256⟩) := by
  refine stepWith_of_fetch_error hr (State.fetchInstr_of_operands_error (by simpa using hpc) ?_)
  exact State.fetchOperands_beyond (operandCount_le_two _) (by simpa using hpc) (by simpa using h)

/-! ### The parts of an instruction's effect and of its faults -/

/-- An operand byte above 7 raises before the continuation runs, so what the instruction would do is immaterial. -/
theorem State.commit_regIndex_bind_of_gt {b : Byte} (h : 7 < b.toNat) (s : State) (f : Fin 8 → Except Raise State) :
    s.commit (regIndex b >>= f) = .next (s.takeFault ⟨.invalidRegister, b.toNat⟩) := by
  rw [regIndex_of_gt h]
  rfl

theorem State.writeReg_sameRegsExcept (s : State) (i : Fin 8) (v : Byte) :
    SameRegsExcept [i] s (s.writeReg i v) := by
  intro j hj
  have hne : i ≠ j := fun h => hj (by simp [h])
  exact ⟨State.writeReg_reg_of_ne hne s v, State.writeReg_isWritten_of_ne hne s v⟩

/-- From an address inside memory the 9 bits of the pc hold every advance. -/
theorem State.advance_pc_toNat {s : State} {n : Nat} (hpc : s.pc.toNat ≤ 255) (hn : n ≤ 256) :
    (s.advance n).pc.toNat = s.pc.toNat + n := by
  rw [State.advance_pc, BitVec.toNat_ofNat, Nat.mod_eq_of_lt (by omega)]

/-! ### LDI (42_load_and_output.md R110) -/

theorem rowOf_default_ldi : rowOf Config.default 0b10000010 = .ldi := by decide

theorem decode_ldi (op1 imm : Byte) (rest : List Byte) :
    decode (0b10000010 :: op1 :: imm :: rest) = .ok (.ldi op1 imm, rest) := by
  rw [decode, decodeWith_two_bytes, rowOf_default_ldi]
  rfl

theorem exec_ldi_regOperand (r : Fin 8) (imm : Byte) (s : State) :
    exec (.ldi (regOperand r) imm) s = .next ((s.writeReg r imm).advance 3) := by
  simp only [exec, execLdi, regIndex_regOperand]
  rfl

theorem exec_ldi_of_gt {op1 : Byte} (h : 7 < op1.toNat) (imm : Byte) (s : State) :
    exec (.ldi op1 imm) s = .next (s.takeFault ⟨.invalidRegister, op1.toNat⟩) :=
  State.commit_regIndex_bind_of_gt h s _

/-- Settles O8: the completed LDI is one register write and an advance of 3; its two faults are the register operand's,
before the write, and the operand fetch's, before the instruction. -/
theorem ldiLoadsTheImmediate : Obligations.LdiLoadsTheImmediate := by
  intro op1 imm s
  refine ⟨decode_ldi op1 imm, ?_, fun h => exec_ldi_of_gt h imm s, ?_⟩
  · rintro r rfl hpc
    have hpc' : ((s.writeReg r imm).advance 3).pc.toNat = s.pc.toNat + 3 :=
      State.advance_pc_toNat (s := s.writeReg r imm) hpc (by decide)
    exact ⟨_, exec_ldi_regOperand r imm s, State.writeReg_reg_same s r imm, State.writeReg_isWritten_same s r imm,
      hpc', State.writeReg_sameRegsExcept s r imm, fun _ => rfl, rfl, ⟨rfl, rfl⟩, rfl, rfl, rfl⟩
  · intro hr hop hpc
    refine stepWith_of_operand_beyond hr (by omega) ?_
    have hcount : operandCount (rowOf Config.default (s.byteAt s.pc.toNat)) = 2 := by
      rw [hop, rowOf_default_ldi]
      rfl
    omega

end Sys2Proof.Machine
end

section
namespace Sys2Proof

/-- Where the row takes no operand, the decoder reads the opcode byte alone. -/
theorem decodeWith_of_operandCount_zero {c : Config} {b : Byte} (h : operandCount (rowOf c b) = 0) (rest : List Byte) :
    decodeWith c (b :: rest) = .ok (instrOf (rowOf c b) b 0 0, rest) := by
  simp only [decodeWith, h]
  rfl

end Sys2Proof

namespace Sys2Proof.Machine

/-! ### HLT (44_control.md R130) -/

theorem rowOf_default_hlt : rowOf Config.default 0b00000001 = .hlt := by decide

theorem decode_hlt (rest : List Byte) : decode (0b00000001 :: rest) = .ok (.hlt, rest) := by
  have hcount : operandCount (rowOf Config.default 0b00000001) = 0 := by rw [rowOf_default_hlt]; rfl
  rw [decode, decodeWith_of_operandCount_zero hcount, rowOf_default_hlt]
  rfl

theorem exec_hlt (s : State) : exec .hlt s = .next (s.halt.jump 0) := rfl

theorem stepWith_ne_next_of_halted {s : State} (h : s.run = .halted) (c : Config) (t : State) :
    stepWith c s ≠ .next t := by
  rw [stepWith_of_halted h]
  nofun

@[simp] theorem State.pushed_run (s : State) (v : Byte) : (s.pushed v).run = s.run := rfl

theorem FaultTaken.run_eq_faulted {i : Instr} {s t : State} (h : FaultTaken i s t) : t.run = .faulted := by
  obtain ⟨e, -, rfl⟩ := h
  rfl

/-- Where an instruction completes, it keeps the run state or it is HLT. -/
theorem Completed.run_eq_of_ne_hlt {i : Instr} {s t : State} (h : Completed i s t) (hi : i ≠ .hlt) : t.run = s.run := by
  cases i
  case hlt => exact absurd rfl hi
  case ldi => obtain ⟨r, -, rfl⟩ := h; rfl
  case prn => obtain ⟨r, -, -, rfl⟩ := h; rfl
  case add => obtain ⟨a, b, -, -, -, -, rfl⟩ := h; rfl
  case mul => obtain ⟨a, b, -, -, -, -, rfl⟩ := h; rfl
  case push => obtain ⟨r, -, -, -, -, rfl⟩ := h; simp
  case pop => obtain ⟨r, s1, -, -, rfl, -, rfl⟩ := h; rfl
  case call => obtain ⟨r, -, -, -, -, -, rfl⟩ := h; simp
  case ret => obtain ⟨-, -, rfl⟩ := h; rfl
  case cmp => obtain ⟨a, b, -, -, -, -, rfl⟩ := h; rfl
  case jmp => obtain ⟨r, -, -, rfl⟩ := h; rfl
  case jeq => obtain ⟨r, -, -, rfl⟩ := h; split <;> rfl
  case jne => obtain ⟨r, -, -, rfl⟩ := h; split <;> rfl
  case unrecognized => cases h; rfl

/-- HLT is the only way to Halted: any other instruction keeps the run state or faults. -/
theorem eq_hlt_of_exec_halted {i : Instr} {s t : State} (h : exec i s = .next t) (hs : s.run ≠ .halted)
    (ht : t.run = .halted) : i = .hlt := by
  by_contra hi
  rcases exec_eq_next h with hc | hf
  · exact hs ((hc.run_eq_of_ne_hlt hi).symm.trans ht)
  · exact absurd (hf.run_eq_faulted.symm.trans ht) (by decide)

/-- Settles O7: HLT writes the run state and the pc alone, and no other instruction ends in Halted unless it started there. -/
theorem hltHaltsAndClearsThePc : Obligations.HltHaltsAndClearsThePc := by
  refine ⟨decode_hlt, fun s => ?_, fun _ _ _ => eq_hlt_of_exec_halted⟩
  have hrun : (s.halt.jump 0).run = .halted := rfl
  exact ⟨_, exec_hlt s, hrun, rfl, fun _ _ => ⟨rfl, rfl⟩, fun _ => rfl, rfl, rfl, ⟨rfl, rfl, rfl⟩,
    stepWith_ne_next_of_halted hrun⟩

end Sys2Proof.Machine
end

section
namespace Sys2Proof

/-! ### Encoding and decoding invert each other (30_encoding.md sections 1 to 3) -/

theorem encodeWith_of_opcodeByte {c : Config} {i : Instr} {b : Byte} (h : opcodeByte c i.row = some b) :
    encodeWith c i = b :: i.operandBytes := by
  cases i
  case unrecognized => cases h
  all_goals simp only [encodeWith, h]

/-- A well-formed instruction is an unrecognized byte that no row matches, or its row carries an opcode byte. -/
theorem Instr.wf_iff {c : Config} {i : Instr} :
    i.wf c = true ↔ (∃ b, i = .unrecognized b ∧ rowOf c b = .unrecognized) ∨ ∃ b, opcodeByte c i.row = some b := by
  cases i
  case add => simp [Instr.wf, Instr.row, opcodeByte, Option.isSome_iff_exists]
  case jne => simp [Instr.wf, Instr.row, opcodeByte, Option.isSome_iff_exists]
  case unrecognized => simp [Instr.wf, Instr.row, opcodeByte]
  all_goals exact iff_of_true rfl (.inr ⟨_, rfl⟩)

/-- The byte that decodes to an instruction's row, followed by its operand bytes, decodes to the instruction. -/
theorem decodeWith_operandBytes {c : Config} {i : Instr} {b : Byte} (hrow : rowOf c b = i.row)
    (hi : i.row ≠ .unrecognized) (rest : List Byte) :
    decodeWith c (b :: (i.operandBytes ++ rest)) = .ok (i, rest) := by
  simp only [decodeWith, hrow]
  cases i
  case unrecognized => exact absurd rfl hi
  all_goals rfl

/-- Settles O39: a well-formed instruction's opcode byte is carried by its row alone, so the decoder takes that row and as
many operand bytes as the encoder wrote; an unrecognized byte is encoded as itself. -/
theorem decodeInvertsEncode : Obligations.DecodeInvertsEncode := by
  intro c i rest hc hi
  obtain ⟨b, rfl, hb⟩ | ⟨b, hb⟩ := Instr.wf_iff.1 hi
  · exact decodeWith_of_unrecognized hb rest
  · have hrow : i.row ≠ .unrecognized := fun hu => by rw [hu] at hb; cases hb
    rw [encodeWith_of_opcodeByte hb]
    exact decodeWith_operandBytes (rowOf_eq_of_opcodeByte hc hb) hrow rest

theorem Instr.operandBytes_instrOf (row : Row) (ir op1 op2 : Byte) :
    (instrOf row ir op1 op2).operandBytes = [op1, op2].take (operandCount row) := by
  cases row <;> rfl

/-- Everything the decoder can do where it answers: it read an opcode byte of the instruction's row and its operands. -/
theorem decodeWith_eq_ok {c : Config} {bytes rest : List Byte} {i : Instr} (h : decodeWith c bytes = .ok (i, rest)) :
    ∃ ir, bytes = ir :: (i.operandBytes ++ rest) ∧ i.row = rowOf c ir ∧
      (rowOf c ir = .unrecognized → i = .unrecognized ir) := by
  cases bytes with
  | nil => cases h
  | cons ir tail =>
    simp only [decodeWith] at h
    split at h
    next op1 op2 rest' htake =>
      cases h
      refine ⟨ir, ?_, Instr.row_instrOf _ _ _ _, fun hu => by rw [hu]; rfl⟩
      rw [Instr.operandBytes_instrOf]
      have hle : operandCount (rowOf c ir) ≤ 2 := Machine.operandCount_le_two _
      obtain ⟨hn, rfl⟩ | ⟨hn, rfl⟩ | ⟨hn, rfl⟩ := takeOperands_eq_ok htake
      · rw [hn]; rfl
      · rw [hn]; rfl
      · rw [Nat.le_antisymm hle hn]; rfl
    next => cases h

/-- Settles O40: the byte read is the opcode byte of the row it decodes to, which the encoder writes again. -/
theorem encodeInvertsDecode : Obligations.EncodeInvertsDecode := by
  intro c bytes i rest h
  obtain ⟨ir, rfl, hrow, hunrec⟩ := decodeWith_eq_ok h
  obtain hir | ⟨hir, -⟩ := rowOf_cases c ir
  · rw [← hrow] at hir
    rw [encodeWith_of_opcodeByte hir, List.length_cons, Instr.operandBytes_length, Instr.length, Nat.add_comm]
    exact ⟨Instr.wf_iff.2 (.inr ⟨ir, hir⟩), rfl, rfl⟩
  · cases hunrec hir
    exact ⟨Instr.wf_iff.2 (.inl ⟨ir, rfl, hir⟩), rfl, rfl⟩

/-! ### The parameters (00_scope.md section 3, 30_encoding.md R75, R76) -/

/-- A byte that no fixed row carries and that is neither parameter is unrecognized. -/
theorem rowOf_eq_unrecognized_of_notMem {c : Config} {b : Byte} (hfixed : b ∉ fixedOpcodes)
    (hadd : c.addOpcode ≠ some b) (hjne : c.jneOpcode ≠ some b) : rowOf c b = .unrecognized := by
  refine rowOf_eq_unrecognized_iff.2 fun row hrow => ?_
  obtain ⟨-, h⟩ | ⟨-, h⟩ | ⟨h, -⟩ := opcodeByte_eq_some hrow
  · exact hadd h
  · exact hjne h
  · exact hfixed h

/-- Settles O38: the row of a parameter carries the parameter's byte and no other, and 0x55 is JEQ's fixed byte. -/
theorem parametersDecideAddAndJne : Obligations.ParametersDecideAddAndJne := by
  intro c
  constructor
  · intro hc
    refine ⟨fun b h => rowOf_eq_of_opcodeByte hc (row := .add) h, fun b h => rowOf_eq_of_opcodeByte hc (row := .jne) h,
      fun hnone b hb => ?_, fun hnone b hb => ?_, rowOf_eq_of_opcodeByte hc (row := .jeq) rfl⟩
    · have hbyte : opcodeByte c (rowOf c b) = some b := opcodeByte_rowOf (by rw [hb]; decide)
      rw [hb, opcodeByte, hnone] at hbyte
      cases hbyte
    · have hbyte : opcodeByte c (rowOf c b) = some b := opcodeByte_rowOf (by rw [hb]; decide)
      rw [hb, opcodeByte, hnone] at hbyte
      cases hbyte
  · intro hwf
    obtain ⟨-, hadd56, hjneA0⟩ := Config.wf_iff.1 hwf
    exact ⟨fun h => rowOf_eq_unrecognized_of_notMem (by decide) h hjneA0,
      fun h => rowOf_eq_unrecognized_of_notMem (by decide) hadd56 h⟩

/-- The twelve opcodes other than ADD's. -/
theorem opcodes_besides_add :
    [0x01, 0x82, 0x47, 0xA2, 0x45, 0x46, 0x50, 0x11, 0xA7, 0x54, 0x55, 0x56] = fixedOpcodes ++ [0x56] := by decide

/-- The twelve opcodes other than JNE's. -/
theorem opcodes_besides_jne :
    [0x01, 0x82, 0x47, 0xA0, 0xA2, 0x45, 0x46, 0x50, 0x11, 0xA7, 0x54, 0x55].Perm (0xA0 :: fixedOpcodes) := by decide

theorem Config.wf_iff_forall_opcodes (c : Config) : c.wf = true ↔
    (∀ b ∈ fixedOpcodes ++ [0x56], c.addOpcode ≠ some b) ∧ (∀ b ∈ 0xA0 :: fixedOpcodes, c.jneOpcode ≠ some b) ∧
      ∀ b, c.addOpcode = some b → c.jneOpcode ≠ some b := by
  rw [Config.wf_iff, Config.opcodesDistinct_iff, List.forall_mem_append, List.forall_mem_singleton, List.forall_mem_cons]
  constructor
  · rintro ⟨⟨hfixed, hne⟩, hadd, hjne⟩
    exact ⟨⟨fun b hb => (hfixed b hb).1, hadd⟩, ⟨hjne, fun b hb => (hfixed b hb).2⟩, hne⟩
  · rintro ⟨⟨hfixedAdd, hadd⟩, ⟨hjne, hfixedJne⟩, hne⟩
    exact ⟨⟨fun b hb => ⟨hfixedAdd b hb, hfixedJne b hb⟩, hne⟩, hadd, hjne⟩

/-- Settles O50: the lists written out are the fixed opcodes and the other parameter's default. -/
theorem parametersDifferFromEveryOtherOpcode : Obligations.ParametersDifferFromEveryOtherOpcode := by
  refine ⟨fun c => ?_, by decide, fun c => Config.opcodesDistinct_of_wf⟩
  rw [Config.wf_iff_forall_opcodes, opcodes_besides_add]
  simp only [opcodes_besides_jne.mem_iff]

end Sys2Proof
end

section
namespace Sys2Proof

/-- Where the row takes one operand, the decoder reads the opcode byte and the byte after it. -/
theorem decodeWith_of_operandCount_one {c : Config} {b : Byte} (h : operandCount (rowOf c b) = 1) (op1 : Byte)
    (rest : List Byte) : decodeWith c (b :: op1 :: rest) = .ok (instrOf (rowOf c b) b op1 0, rest) := by
  simp only [decodeWith, h]
  rfl

/-- A row of one operand leaves the second operand byte unused. -/
theorem instrOf_second_unused {row : Row} (h : operandCount row ≤ 1) (ir op1 op2 op2' : Byte) :
    instrOf row ir op1 op2 = instrOf row ir op1 op2' := by
  cases row
  case ldi | add | mul | cmp => exact absurd h (by decide)
  all_goals rfl

/-- A row of no operand leaves both operand bytes unused. -/
theorem instrOf_operands_unused {row : Row} (h : operandCount row = 0) (ir op1 op2 op1' op2' : Byte) :
    instrOf row ir op1 op2 = instrOf row ir op1' op2' := by
  cases row
  case hlt | ret | unrecognized => rfl
  all_goals cases h

end Sys2Proof

namespace Sys2Proof.Machine

/-! ### Fetch and decode (40_cycle.md section 1) -/

/-- The instruction made of the bytes at pc, of which it uses as many as its row takes. -/
def State.instrAtPc (c : Config) (s : State) : Instr :=
  instrOf (rowOf c (s.byteAt s.pc.toNat)) (s.byteAt s.pc.toNat) (s.byteAt (s.pc.toNat + 1)) (s.byteAt (s.pc.toNat + 2))

theorem State.instrAtPc_length (c : Config) (s : State) :
    (s.instrAtPc c).length = 1 + operandCount (rowOf c (s.byteAt s.pc.toNat)) := by
  rw [State.instrAtPc, Instr.length, Instr.row_instrOf]

@[simp] theorem State.instrAtPc_emitTrace (c c' : Config) (s : State) : (s.emitTrace c').instrAtPc c = s.instrAtPc c := by
  simp [State.instrAtPc]

theorem State.memRead_natCast {a : Nat} (h : a ≤ 255) (s : State) : s.memRead a = .ok (s.byteAt a) := by
  rw [State.memRead_of_inRange ⟨by omega, by omega⟩, Int.toNat_natCast]

/-- An instruction whose bytes lie inside memory is fetched whole. -/
theorem State.fetchInstr_of_inside {c : Config} {s : State}
    (h : s.pc.toNat + operandCount (rowOf c (s.byteAt s.pc.toNat)) ≤ 255) : s.fetchInstr c = .ok (s.instrAtPc c) := by
  have hir : s.memRead s.pc.toNat = .ok (s.byteAt s.pc.toNat) := State.memRead_natCast (by omega) s
  have hop1 (h1 : s.pc.toNat + 1 ≤ 255) : s.memRead (s.pc.toNat + 1) = .ok (s.byteAt (s.pc.toNat + 1)) :=
    State.memRead_natCast h1 s
  have hop2 (h2 : s.pc.toNat + 2 ≤ 255) : s.memRead (s.pc.toNat + 2) = .ok (s.byteAt (s.pc.toNat + 2)) :=
    State.memRead_natCast h2 s
  simp only [State.fetchInstr, hir, bind, Except.bind]
  have hle := operandCount_le_two (rowOf c (s.byteAt s.pc.toNat))
  obtain hn | hn | hn : operandCount (rowOf c (s.byteAt s.pc.toNat)) = 0 ∨
    operandCount (rowOf c (s.byteAt s.pc.toNat)) = 1 ∨ operandCount (rowOf c (s.byteAt s.pc.toNat)) = 2 := by omega
  · rw [hn, State.fetchOperands]
    exact congrArg Except.ok (instrOf_operands_unused hn ..)
  · rw [hn, State.fetchOperands, hop1 (by omega)]
    exact congrArg Except.ok (instrOf_second_unused (by omega) ..)
  · rw [hn, State.fetchOperands, hop1 (by omega), hop2 (by omega)]
    rfl

/-- An opcode fetch beyond memory raises with the pc. -/
theorem State.fetchInstr_of_pc_beyond {s : State} (h : 255 < s.pc.toNat) (c : Config) :
    s.fetchInstr c = .error ⟨.addressOutOfRange, s.pc.toNat⟩ := by
  have hir : s.memRead s.pc.toNat = .error ⟨.addressOutOfRange, s.pc.toNat⟩ :=
    State.memRead_of_not_inRange (fun hr => absurd hr.2 (by omega)) s
  rw [State.fetchInstr, hir]
  rfl

theorem stepWith_of_pc_beyond {c : Config} {s : State} (hr : s.run = .running) (h : 255 < s.pc.toNat) :
    stepWith c s = .next ((s.emitTrace c).takeFault ⟨.addressOutOfRange, s.pc.toNat⟩) := by
  have hf := State.fetchInstr_of_pc_beyond (s := s.emitTrace c) (by simpa using h) c
  rw [State.emitTrace_pc] at hf
  exact stepWith_of_fetch_error hr hf

theorem stepWith_of_inside {c : Config} {s : State} (hr : s.run = .running)
    (h : s.pc.toNat + operandCount (rowOf c (s.byteAt s.pc.toNat)) ≤ 255) :
    stepWith c s = exec (s.instrAtPc c) (s.emitTrace c) := by
  refine stepWith_of_fetch_ok hr ?_
  rw [State.fetchInstr_of_inside (by simpa using h), State.instrAtPc_emitTrace]

/-- Settles O6: the three cases are an opcode beyond memory, an operand beyond memory, and an instruction inside it. -/
theorem fetchBeyondMemoryTakesAddressOutOfRange : Obligations.FetchBeyondMemoryTakesAddressOutOfRange := by
  intro c s hr
  refine ⟨fun hpc => ?_, stepWith_of_operand_beyond hr, stepWith_of_inside hr⟩
  rw [stepWith_of_pc_beyond hr (by omega), hpc]
  rfl

/-! ### The bytes at pc decode to the instruction that is fetched -/

/-- The bytes an instruction may use are three, cut at the end of memory. -/
theorem State.codeBytes_eq_take (s : State) (a : Nat) :
    s.codeBytes a = [s.byteAt a, s.byteAt (a + 1), s.byteAt (a + 2)].take (256 - a) := by
  obtain h | rfl | rfl | h : a ≤ 253 ∨ a = 254 ∨ a = 255 ∨ 256 ≤ a := by omega
  · have h0 : a ≤ 255 := by omega
    have h1 : a + 1 ≤ 255 := by omega
    have h2 : a + 2 ≤ 255 := by omega
    rw [List.take_of_length_le (by simp only [List.length_cons, List.length_nil]; omega)]
    simp [State.codeBytes, h0, h1, h2]
  · rfl
  · rfl
  · have h0 : ¬ a ≤ 255 := by omega
    have h1 : ¬ a + 1 ≤ 255 := by omega
    have h2 : ¬ a + 2 ≤ 255 := by omega
    rw [Nat.sub_eq_zero_of_le h]
    simp [State.codeBytes, h0, h1, h2]

theorem decodeWith_codeBytes_of_inside {c : Config} {s : State}
    (h : s.pc.toNat + operandCount (rowOf c (s.byteAt s.pc.toNat)) ≤ 255) :
    ∃ rest, decodeWith c (s.codeBytes s.pc.toNat) = .ok (s.instrAtPc c, rest) := by
  rw [State.codeBytes_eq_take]
  have hle := operandCount_le_two (rowOf c (s.byteAt s.pc.toNat))
  obtain hn | hn | hn : operandCount (rowOf c (s.byteAt s.pc.toNat)) = 0 ∨
    operandCount (rowOf c (s.byteAt s.pc.toNat)) = 1 ∨ operandCount (rowOf c (s.byteAt s.pc.toNat)) = 2 := by omega
  · obtain ⟨k, hk⟩ : ∃ k, 256 - s.pc.toNat = k + 1 := ⟨255 - s.pc.toNat, by omega⟩
    rw [hk, List.take_succ_cons, decodeWith_of_operandCount_zero hn, State.instrAtPc]
    exact ⟨_, by rw [instrOf_operands_unused hn]⟩
  · obtain ⟨k, hk⟩ : ∃ k, 256 - s.pc.toNat = k + 2 := ⟨254 - s.pc.toNat, by omega⟩
    rw [hk, List.take_succ_cons, List.take_succ_cons, decodeWith_of_operandCount_one hn, State.instrAtPc]
    exact ⟨_, by rw [instrOf_second_unused (by omega)]⟩
  · obtain ⟨k, hk⟩ : ∃ k, 256 - s.pc.toNat = k + 3 := ⟨253 - s.pc.toNat, by omega⟩
    rw [hk, List.take_succ_cons, List.take_succ_cons, List.take_succ_cons, decodeWith_two_bytes]
    exact ⟨_, rfl⟩

/-- What the bytes at pc decode to lies inside memory and is the instruction made of those bytes. -/
theorem decodeWith_codeBytes_eq_ok {c : Config} {s : State} {i : Instr} {rest : List Byte}
    (h : decodeWith c (s.codeBytes s.pc.toNat) = .ok (i, rest)) :
    s.pc.toNat + operandCount (rowOf c (s.byteAt s.pc.toNat)) ≤ 255 ∧ i = s.instrAtPc c := by
  obtain ⟨ir, hbytes, hrow, -⟩ := decodeWith_eq_ok h
  have hin : s.pc.toNat + operandCount (rowOf c (s.byteAt s.pc.toNat)) ≤ 255 := by
    have hlen := congrArg List.length hbytes
    simp only [State.codeBytes_eq_take, List.length_take, List.length_cons, List.length_append,
      Instr.operandBytes_length, hrow] at hlen
    have hhead := congrArg List.head? hbytes
    rw [State.codeBytes_eq_take, List.head?_take, if_neg (by omega), List.head?_cons, List.head?_cons,
      Option.some_inj] at hhead
    rw [hhead]
    omega
  obtain ⟨rest', hdec⟩ := decodeWith_codeBytes_of_inside hin
  rw [hdec] at h
  cases h
  exact ⟨hin, rfl⟩

/-- A running step is the instruction that the bytes at pc decode to. -/
theorem stepWith_of_decode {c : Config} {s : State} {i : Instr} {rest : List Byte} (hr : s.run = .running)
    (h : decodeWith c (s.codeBytes s.pc.toNat) = .ok (i, rest)) : stepWith c s = exec i (s.emitTrace c) := by
  obtain ⟨hin, rfl⟩ := decodeWith_codeBytes_eq_ok h
  exact stepWith_of_inside hr hin

/-- Settles O4: what decodes lies inside memory and is what the step fetches; `Config.default` traces. -/
theorem stepRunsTheDecodedInstruction : Obligations.StepRunsTheDecodedInstruction :=
  ⟨fun _ _ _ _ => stepWith_of_decode, fun _ _ _ => stepWith_of_decode (c := Config.default)⟩

/-! ### Everything a step can do -/

/-- Everything a step can raise: an opcode fetch beyond memory, an operand fetch beyond memory, or what the instruction
inside memory raises. -/
inductive StepRaises (c : Config) (s : State) : Raise → Prop where
  /-- The opcode lies beyond memory. -/
  | opcode (h : 255 < s.pc.toNat) : StepRaises c s ⟨.addressOutOfRange, s.pc.toNat⟩
  /-- An operand byte lies beyond memory. -/
  | operand : StepRaises c s ⟨.addressOutOfRange, 256⟩
  /-- The instruction raises. -/
  | instr {e : Raise} (hin : s.pc.toNat + (s.instrAtPc c).length ≤ 256) (h : Raisable (s.instrAtPc c) s e) :
    StepRaises c s e

/-- The trace record before the instruction changes nothing that a raise depends on. -/
theorem Raisable.of_emitTrace {c : Config} {i : Instr} {s : State} {e : Raise} (h : Raisable i (s.emitTrace c) e) :
    Raisable i s e := by
  cases h with
  | invalidRegister b hb => exact .invalidRegister b hb
  | uninitializedRegister r hw => exact .uninitializedRegister r (by simpa using hw)
  | belowMemory => exact .belowMemory
  | aboveMemory => exact .aboveMemory
  | returnAddress op1 hi hret =>
    rw [State.emitTrace_pc] at hret ⊢
    exact .returnAddress op1 hi hret

/-- Where a step answers a next state, the instruction at pc completed, or a fault was taken; in both cases from the state
with the step's trace record. -/
theorem stepWith_eq_next {c : Config} {s t : State} (h : stepWith c s = .next t) :
    s.run = .running ∧
      ((∃ i rest, decodeWith c (s.codeBytes s.pc.toNat) = .ok (i, rest) ∧ s.pc.toNat + i.length ≤ 256 ∧
          Completed i (s.emitTrace c) t) ∨
        ∃ e, StepRaises c s e ∧ t = (s.emitTrace c).takeFault e) := by
  have hr : s.run = .running := by
    cases hrun : s.run with
    | running => rfl
    | halted => rw [stepWith_of_halted hrun] at h; cases h
    | faulted => rw [stepWith_of_faulted hrun] at h; cases h
  refine ⟨hr, ?_⟩
  by_cases hpc : 255 < s.pc.toNat
  · rw [stepWith_of_pc_beyond hr hpc] at h
    cases h
    exact .inr ⟨_, .opcode hpc, rfl⟩
  by_cases hin : s.pc.toNat + operandCount (rowOf c (s.byteAt s.pc.toNat)) ≤ 255
  · have hlen : s.pc.toNat + (s.instrAtPc c).length ≤ 256 := by rw [State.instrAtPc_length]; omega
    rw [stepWith_of_inside hr hin] at h
    obtain hcompleted | ⟨e, he, rfl⟩ := exec_eq_next h
    · obtain ⟨rest, hdec⟩ := decodeWith_codeBytes_of_inside hin
      exact .inl ⟨_, rest, hdec, hlen, hcompleted⟩
    · exact .inr ⟨e, .instr hlen he.of_emitTrace, rfl⟩
  · rw [stepWith_of_operand_beyond hr (by omega) (by omega)] at h
    cases h
    exact .inr ⟨_, .operand, rfl⟩

end Sys2Proof.Machine
end

section
namespace Sys2Proof.Machine

/-! ### The push side of PUSH and CALL -/

theorem toNat_ofNat_pred (b : Byte) : (BitVec.ofNat 8 (b.toNat - 1)).toNat = b.toNat - 1 := by
  have := b.isLt
  rw [BitVec.toNat_ofNat, Nat.mod_eq_of_lt (by omega)]

theorem toNat_ofNat_succ {b : Byte} (h : b.toNat < 255) : (BitVec.ofNat 8 (b.toNat + 1)).toNat = b.toNat + 1 := by
  rw [BitVec.toNat_ofNat, Nat.mod_eq_of_lt (by omega)]

theorem State.pushed_mem (s : State) (v : Byte) :
    (s.pushed v).mem = s.mem.writeByte ((s.reg spIndex).toNat - 1) v := by
  rw [State.pushed, State.setByte_mem, toNat_ofNat_pred, State.writeReg_mem]

theorem State.pushed_sameRegsExcept (s : State) (v : Byte) : SameRegsExcept [spIndex] s (s.pushed v) :=
  State.writeReg_sameRegsExcept s spIndex (BitVec.ofNat 8 ((s.reg spIndex).toNat - 1))

@[simp] theorem State.pushed_isWritten_sp (s : State) (v : Byte) : (s.pushed v).isWritten spIndex = true := by
  simp [State.pushed]

@[simp] theorem State.pushed_reg_sp (s : State) (v : Byte) :
    (s.pushed v).reg spIndex = BitVec.ofNat 8 ((s.reg spIndex).toNat - 1) := by
  simp [State.pushed]

/-! ### The frame of a completed instruction -/

/-- The registers an instruction may write: the one it names as its destination, and SP where it moves the stack. -/
def MayWrite (i : Instr) (j : Fin 8) : Prop :=
  match i with
  | .ldi r _ | .add r _ | .mul r _ => r = regOperand j
  | .pop r => r = regOperand j ∨ j = spIndex
  | .push _ | .call _ | .ret => j = spIndex
  | .hlt | .prn _ | .cmp _ _ | .jmp _ | .jeq _ | .jne _ | .unrecognized _ => False

/-- What an instruction that completes leaves unchanged, and for every other field the instructions that change it and to
what. The pc is left open; the run state is `Completed.run_eq_of_ne_hlt`'s. -/
structure Frame (i : Instr) (s t : State) : Prop where
  fault : t.fault = s.fault
  trace : t.trace = s.trace
  regs : ∀ j, ¬ MayWrite i j → t.reg j = s.reg j ∧ t.isWritten j = s.isWritten j
  written : ∀ j, s.isWritten j = true → t.isWritten j = true
  mem : t.mem = s.mem ∨ (∃ r, i = .push r ∨ i = .call r) ∧ 0 < (s.reg spIndex).toNat ∧
    ∃ v, t.mem = s.mem.writeByte ((s.reg spIndex).toNat - 1) v
  fl : t.fl = s.fl ∨ ∃ a b va vb, i = .cmp a b ∧ t.fl = flOfFlags (compareFlags va vb)
  out : t.out = s.out ∨ ∃ r, i = .prn (regOperand r) ∧ t.out = s.out ++ [s.reg r]
  diag : t.diag = s.diag ∨ ∃ b, i = .unrecognized b ∧ t.diag = s.diag ++ [.unrecognizedOpcode s.pc b]

/-! The frame grows along the updates that an instruction makes one after another. -/

theorem Frame.refl (i : Instr) (s : State) : Frame i s s where
  fault := rfl
  trace := rfl
  regs _ _ := ⟨rfl, rfl⟩
  written _ h := h
  mem := .inl rfl
  fl := .inl rfl
  out := .inl rfl
  diag := .inl rfl

theorem Frame.advance {i : Instr} {s t : State} (h : Frame i s t) (n : Nat) : Frame i s (t.advance n) := { h with }

theorem Frame.jump {i : Instr} {s t : State} (h : Frame i s t) (target : Byte) : Frame i s (t.jump target) := { h with }

theorem Frame.halt {i : Instr} {s t : State} (h : Frame i s t) : Frame i s t.halt := { h with }

theorem Frame.writeReg {i : Instr} {s t : State} (h : Frame i s t) {r : Fin 8} (hr : MayWrite i r) (v : Byte) :
    Frame i s (t.writeReg r v) :=
  { h with
    regs := fun j hj => by
      have hne : r ≠ j := fun hrj => hj (hrj ▸ hr)
      rw [State.writeReg_reg_of_ne hne, State.writeReg_isWritten_of_ne hne]
      exact h.regs j hj
    written := fun j hj => by simp [State.writeReg_isWritten, h.written j hj] }

theorem Frame.pushed {i : Instr} {s : State} (hi : ∃ r, i = .push r ∨ i = .call r) (hp : 0 < (s.reg spIndex).toNat)
    (v : Byte) : Frame i s (s.pushed v) :=
  have hw : MayWrite i spIndex := by obtain ⟨r, rfl | rfl⟩ := hi <;> rfl
  have hreg := (Frame.refl i s).writeReg hw (BitVec.ofNat 8 ((s.reg spIndex).toNat - 1))
  { hreg with mem := .inr ⟨hi, hp, v, s.pushed_mem v⟩ }

theorem Completed.frame {i : Instr} {s t : State} (h : Completed i s t) : Frame i s t := by
  have hs := Frame.refl i s
  cases i
  case hlt => cases h; exact hs.halt.jump 0
  case ldi => obtain ⟨r, hr, rfl⟩ := h; exact (hs.writeReg hr _).advance 3
  case prn => obtain ⟨r, rfl, -, rfl⟩ := h; exact { hs with out := .inr ⟨r, rfl, rfl⟩ }
  case add => obtain ⟨a, b, ha, -, -, -, rfl⟩ := h; exact (hs.writeReg ha _).advance 3
  case mul => obtain ⟨a, b, ha, -, -, -, rfl⟩ := h; exact (hs.writeReg ha _).advance 3
  case push => obtain ⟨r, -, -, hp, -, rfl⟩ := h; exact (Frame.pushed ⟨_, .inl rfl⟩ hp _).advance 2
  case pop => obtain ⟨r, s1, hr, -, rfl, -, rfl⟩ := h; exact ((hs.writeReg (.inl hr) _).writeReg (.inr rfl) _).advance 2
  case call => obtain ⟨r, -, -, hp, -, -, rfl⟩ := h; exact (Frame.pushed ⟨_, .inr rfl⟩ hp _).jump _
  case ret => obtain ⟨-, -, rfl⟩ := h; exact (hs.writeReg (i := .ret) rfl _).jump _
  case cmp => obtain ⟨a, b, -, -, -, -, rfl⟩ := h; exact { hs with fl := .inr ⟨_, _, _, _, rfl, rfl⟩ }
  case jmp => obtain ⟨r, -, -, rfl⟩ := h; exact hs.jump _
  case jeq => obtain ⟨r, -, -, rfl⟩ := h; split; exacts [hs.jump _, hs.advance 2]
  case jne => obtain ⟨r, -, -, rfl⟩ := h; split; exacts [hs.jump _, hs.advance 2]
  case unrecognized => cases h; exact { hs with diag := .inr ⟨_, rfl, rfl⟩ }

/-! ### The pc after a completed instruction -/

theorem State.jump_pc_toNat (s : State) (target : Byte) : (s.jump target).pc.toNat = target.toNat := by
  have := target.isLt
  rw [State.jump_pc, BitVec.toNat_setWidth, Nat.mod_eq_of_lt (by omega)]

theorem State.jump_pc_le (s : State) (target : Byte) : (s.jump target).pc.toNat ≤ 255 := by
  have := target.isLt
  rw [State.jump_pc_toNat]
  omega

/-- The instructions that never go on to the byte after them (44_control.md). -/
def AlwaysTransfers : Instr → Prop
  | .hlt | .ret | .jmp _ | .call _ => True
  | _ => False

/-- A completed instruction goes to an address of memory, or on to the byte after it. -/
theorem Completed.pc_cases {i : Instr} {s t : State} (h : Completed i s t) :
    t.pc.toNat ≤ 255 ∨
      (t.pc = BitVec.ofNat 9 (s.pc.toNat + i.length) ∧ ¬ AlwaysTransfers i) := by
  cases i
  case hlt => cases h; exact .inl (State.jump_pc_le _ _)
  case ldi => obtain ⟨r, -, rfl⟩ := h; exact .inr ⟨rfl, id⟩
  case prn => obtain ⟨r, -, -, rfl⟩ := h; exact .inr ⟨rfl, id⟩
  case add => obtain ⟨a, b, -, -, -, -, rfl⟩ := h; exact .inr ⟨rfl, id⟩
  case mul => obtain ⟨a, b, -, -, -, -, rfl⟩ := h; exact .inr ⟨rfl, id⟩
  case push => obtain ⟨r, -, -, -, -, rfl⟩ := h; exact .inr ⟨rfl, id⟩
  case pop => obtain ⟨r, s1, -, -, rfl, -, rfl⟩ := h; exact .inr ⟨rfl, id⟩
  case call => obtain ⟨r, -, -, -, -, -, rfl⟩ := h; exact .inl (State.jump_pc_le _ _)
  case ret => obtain ⟨-, -, rfl⟩ := h; exact .inl (State.jump_pc_le _ _)
  case cmp => obtain ⟨a, b, -, -, -, -, rfl⟩ := h; exact .inr ⟨rfl, id⟩
  case jmp => obtain ⟨r, -, -, rfl⟩ := h; exact .inl (State.jump_pc_le _ _)
  case jeq =>
    obtain ⟨r, -, -, rfl⟩ := h
    split
    exacts [.inl (State.jump_pc_le _ _), .inr ⟨rfl, id⟩]
  case jne =>
    obtain ⟨r, -, -, rfl⟩ := h
    split
    exacts [.inl (State.jump_pc_le _ _), .inr ⟨rfl, id⟩]
  case unrecognized => cases h; exact .inr ⟨rfl, id⟩

/-! ### The invariant (10_state.md sections 1 to 4, 20_memory.md section 1) -/

theorem State.inv_iff {s : State} :
    s.inv = true ↔ s.mem.wf = true ∧ s.pc.toNat ≤ 256 ∧ s.isWritten spIndex = true ∧
      (s.fl = 0b000 ∨ s.fl = 0b001 ∨ s.fl = 0b010 ∨ s.fl = 0b100) ∧ (s.run = .faulted ↔ s.fault ≠ none) := by
  simp only [State.inv, Bool.and_eq_true, decide_eq_true_eq, and_assoc]

@[simp] theorem State.inv_emitTrace (c : Config) (s : State) : (s.emitTrace c).inv = s.inv := by
  simp [State.inv]

/-- What CMP leaves in FL is one flag, with bits 7:3 zero. -/
theorem flOfFlags_compareFlags_cases (va vb : Byte) :
    flOfFlags (compareFlags va vb) = 0b001 ∨ flOfFlags (compareFlags va vb) = 0b010 ∨
      flOfFlags (compareFlags va vb) = 0b100 := by
  obtain h | h | h := compareFlags_cases va vb
  · rw [h]; exact .inl rfl
  · rw [h]; exact .inr (.inl rfl)
  · rw [h]; exact .inr (.inr rfl)

theorem Frame.mem_wf {i : Instr} {s t : State} (h : Frame i s t) (hs : s.mem.wf = true) : t.mem.wf = true := by
  obtain hm | ⟨-, -, v, hm⟩ := h.mem
  · rwa [hm]
  · rw [hm]
    have := (s.reg spIndex).isLt
    exact Memory.wf_writeByte hs (by omega) v

/-- An instruction that completes does not fault. -/
theorem Completed.run_ne_faulted {i : Instr} {s t : State} (h : Completed i s t) (hr : s.run = .running) :
    t.run ≠ .faulted := by
  by_cases hi : i = .hlt
  · subst hi; cases h; nofun
  · rw [h.run_eq_of_ne_hlt hi, hr]; nofun

/-- A completed instruction inside memory keeps the invariant. -/
theorem Completed.inv {i : Instr} {s t : State} (h : Completed i s t) (hs : s.inv = true) (hr : s.run = .running)
    (hlen : s.pc.toNat + i.length ≤ 256) : t.inv = true := by
  obtain ⟨hmem, -, hsp, hfl, hfault⟩ := State.inv_iff.1 hs
  have hframe := h.frame
  refine State.inv_iff.2 ⟨hframe.mem_wf hmem, ?_, hframe.written _ hsp, ?_, ?_⟩
  · obtain hpc | ⟨hpc, -⟩ := h.pc_cases
    · omega
    · rw [hpc, BitVec.toNat_ofNat, Nat.mod_eq_of_lt (by omega)]
      exact hlen
  · obtain hkept | ⟨_, _, va, vb, -, hcmp⟩ := hframe.fl
    · rwa [hkept]
    · rw [hcmp]
      exact .inr (flOfFlags_compareFlags_cases va vb)
  · rw [hframe.fault, ← hfault, hr]
    exact iff_of_false (h.run_ne_faulted hr) nofun

/-- A fault keeps the invariant: it sets the run state and the record together and nothing else. -/
theorem State.inv_takeFault {s : State} (hs : s.inv = true) (e : Raise) : (s.takeFault e).inv = true := by
  obtain ⟨hmem, hpc, hsp, hfl, -⟩ := State.inv_iff.1 hs
  exact State.inv_iff.2 ⟨hmem, hpc, hsp, hfl, iff_of_true rfl nofun⟩

/-- Settles O34: a step completes an instruction that lies inside memory or takes a fault, and both keep the invariant. -/
theorem stepKeepsTheInvariant : Obligations.StepKeepsTheInvariant := by
  intro c s t hs h
  have hs' : (s.emitTrace c).inv = true := by rwa [State.inv_emitTrace]
  obtain ⟨hr, ⟨i, -, -, hlen, hcompleted⟩ | ⟨e, -, rfl⟩⟩ := stepWith_eq_next h
  · exact hcompleted.inv hs' (by rwa [State.emitTrace_run]) (by rwa [State.emitTrace_pc])
  · exact State.inv_takeFault hs' e

end Sys2Proof.Machine
end

section
namespace Sys2Proof.Machine

/-! ### Reading the frame -/

theorem Frame.sameMemory {i : Instr} {s t : State} (h : Frame i s t) (hi : ¬ ∃ r, i = .push r ∨ i = .call r) :
    SameMemory s t := by
  obtain hm | ⟨hpush, -⟩ := h.mem
  · intro a
    rw [State.byteAt, hm, State.byteAt]
  · exact absurd hpush hi

/-- No instruction changes a byte other than the one below SP. -/
theorem Frame.sameMemoryExcept {i : Instr} {s t : State} (h : Frame i s t) :
    SameMemoryExcept ((s.reg spIndex).toNat - 1) s t := by
  intro a ha
  rw [State.byteAt, State.byteAt]
  obtain hm | ⟨-, -, v, hm⟩ := h.mem
  · rw [hm]
  · rw [hm, Memory.readByte_writeByte_of_ne ha]

theorem Frame.fl_eq {i : Instr} {s t : State} (h : Frame i s t) (hi : ∀ a b, i ≠ .cmp a b) : t.fl = s.fl :=
  h.fl.resolve_right fun ⟨a, b, _, _, hcmp, _⟩ => hi a b hcmp

theorem Frame.out_eq {i : Instr} {s t : State} (h : Frame i s t) (hi : ∀ r, i ≠ .prn r) : t.out = s.out :=
  h.out.resolve_right fun ⟨_, hprn, _⟩ => hi _ hprn

theorem Frame.diag_eq {i : Instr} {s t : State} (h : Frame i s t) (hi : ∀ b, i ≠ .unrecognized b) : t.diag = s.diag :=
  h.diag.resolve_right fun ⟨b, hunrec, _⟩ => hi b hunrec

theorem Completed.sameRun {i : Instr} {s t : State} (h : Completed i s t) (hi : i ≠ .hlt) : SameRun s t :=
  ⟨h.run_eq_of_ne_hlt hi, h.frame.fault⟩

/-! A fault taken changes the run state and the record alone (60_exceptions.md R152). -/

theorem State.takeFault_sameRegs (s : State) (e : Raise) : SameRegsExcept [] s (s.takeFault e) := fun _ _ => ⟨rfl, rfl⟩

theorem State.takeFault_sameMemory (s : State) (e : Raise) : SameMemory s (s.takeFault e) := fun _ => rfl

theorem State.takeFault_tookFault (s : State) (e : Raise) : TookFault s (s.takeFault e) :=
  ⟨rfl, rfl, e.cause, e.info, rfl⟩

/-! ### Frames (10_state.md section 1, 20_memory.md section 2) -/

/-- The instructions that change registers and the pc alone. -/
def WritesRegistersOnly : Instr → Prop
  | .ldi _ _ | .add _ _ | .mul _ _ | .pop _ | .ret | .jmp _ | .jeq _ | .jne _ => True
  | .hlt | .prn _ | .push _ | .call _ | .cmp _ _ | .unrecognized _ => False

theorem exec_frame_of_writesRegistersOnly {i : Instr} {s t : State} (hi : WritesRegistersOnly i)
    (h : exec i s = .next t) :
    (∀ j, ¬ MayWrite i j → t.reg j = s.reg j ∧ t.isWritten j = s.isWritten j) ∧
      t.fl = s.fl ∧ SameMemory s t ∧ SamePorts s t ∧ (SameRun s t ∨ TookFault s t ∧ SameRegsExcept [] s t) := by
  obtain hc | ⟨e, -, rfl⟩ := exec_eq_next h
  · have hf := hc.frame
    have hmem : ¬ ∃ r, i = .push r ∨ i = .call r := by rintro ⟨r, rfl | rfl⟩ <;> exact hi
    exact ⟨hf.regs, hf.fl_eq (by rintro a b rfl; exact hi), hf.sameMemory hmem,
      ⟨hf.out_eq (by rintro r rfl; exact hi), hf.diag_eq (by rintro b rfl; exact hi), hf.trace⟩,
      .inl (hc.sameRun (by rintro rfl; exact hi))⟩
  · exact ⟨fun _ _ => ⟨rfl, rfl⟩, rfl, s.takeFault_sameMemory e, ⟨rfl, rfl, rfl⟩,
      .inr ⟨s.takeFault_tookFault e, s.takeFault_sameRegs e⟩⟩

/-- Settles O21: LDI, ADD and MUL change registers alone, and of these the destination. -/
theorem frameOfRegisterWriters : Obligations.FrameOfRegisterWriters := by
  rintro i op1 op2 s t hi h
  have hregs : WritesRegistersOnly i := by obtain rfl | rfl | rfl := hi <;> trivial
  have hdest : ∀ j, MayWrite i j → op1 = regOperand j := by obtain rfl | rfl | rfl := hi <;> exact fun _ => id
  obtain ⟨hsame, hrest⟩ := exec_frame_of_writesRegistersOnly hregs h
  exact ⟨fun j hj => hsame j fun hw => hj (hdest j hw).symm, hrest⟩

/-- Settles O23: POP and RET change registers alone, and of these SP and POP's destination. -/
theorem frameOfPopAndRet : Obligations.FrameOfPopAndRet := by
  rintro i s t hi h
  have hregs : WritesRegistersOnly i := by obtain rfl | ⟨op1, rfl⟩ := hi <;> trivial
  have hdest : ∀ j, MayWrite i j → i = .pop (regOperand j) ∨ j = spIndex := by
    obtain rfl | ⟨op1, rfl⟩ := hi
    · exact fun j => .inr
    · exact fun j => Or.imp_left (congrArg Instr.pop)
  obtain ⟨hsame, hrest⟩ := exec_frame_of_writesRegistersOnly hregs h
  exact ⟨fun j hj hpop => hsame j fun hw => (hdest j hw).elim hpop hj, hrest⟩

/-- Settles O22: none of these instructions may write a register or memory, and each port and FL has its one writer. -/
theorem frameOfInstructionsThatWriteNoRegister : Obligations.FrameOfInstructionsThatWriteNoRegister := by
  intro i s t hi h
  have hnone : ∀ j, ¬ MayWrite i j := by
    obtain rfl | ⟨r, rfl | rfl | rfl | rfl | rfl⟩ | ⟨a, b, rfl⟩ := hi <;> exact fun _ => id
  have hmem : ¬ ∃ r, i = .push r ∨ i = .call r := by
    rintro ⟨r, rfl | rfl⟩
    · exact hnone spIndex rfl
    · exact hnone spIndex rfl
  obtain hc | ⟨e, -, rfl⟩ := exec_eq_next h
  · have hf := hc.frame
    exact ⟨fun j _ => hf.regs j (hnone j), hf.sameMemory hmem, hf.trace, hf.fl_eq, hf.out_eq, hf.diag_eq,
      fun hhlt => .inl (hc.sameRun hhlt)⟩
  · exact ⟨s.takeFault_sameRegs e, s.takeFault_sameMemory e, rfl, fun _ => rfl, fun _ => rfl, fun _ => rfl,
      fun _ => .inr ⟨s.takeFault_tookFault e, rfl, rfl, rfl⟩⟩

/-- A completed PUSH or CALL found SP written and above 0, and leaves it one less. -/
theorem Completed.sp_of_push_or_call {i : Instr} {op1 : Byte} {s t : State} (h : Completed i s t)
    (hi : i = .push op1 ∨ i = .call op1) :
    s.isWritten spIndex = true ∧ 0 < (s.reg spIndex).toNat ∧
      t.reg spIndex = BitVec.ofNat 8 ((s.reg spIndex).toNat - 1) := by
  obtain rfl | rfl := hi
  · obtain ⟨r, -, hw, hp, -, rfl⟩ := h
    exact ⟨hw, hp, by simp⟩
  · obtain ⟨r, -, hw, hp, -, -, rfl⟩ := h
    exact ⟨hw, hp, by simp⟩

/-- Settles O24: a completed PUSH or CALL moves SP as SPDec does and stores below the old SP; a fault changes neither. -/
theorem frameOfPushAndCall : Obligations.FrameOfPushAndCall := by
  intro i op1 s t hi h
  obtain hc | ⟨e, -, rfl⟩ := exec_eq_next h
  · have hf := hc.frame
    obtain ⟨hw, hp, hsp⟩ := hc.sp_of_push_or_call hi
    have hregs : ∀ j, MayWrite i j → j = spIndex := by obtain rfl | rfl := hi <;> exact fun _ => id
    have hcmp : ∀ a b, i ≠ .cmp a b := by obtain rfl | rfl := hi <;> exact nofun
    have hprn : ∀ r, i ≠ .prn r := by obtain rfl | rfl := hi <;> exact nofun
    have hunrec : ∀ b, i ≠ .unrecognized b := by obtain rfl | rfl := hi <;> exact nofun
    have hhlt : i ≠ .hlt := by obtain rfl | rfl := hi <;> exact nofun
    refine ⟨fun j hj => hf.regs j fun hj' => hj (by simp [hregs j hj']), hf.fl_eq hcmp,
      ⟨hf.out_eq hprn, hf.diag_eq hunrec, hf.trace⟩, ?_, .inl ⟨hc.sameRun hhlt, _, State.spDec_of_pos hw hp, ?_⟩⟩
    · rintro s1 a hs1 rfl
      obtain ⟨-, -, rfl⟩ := State.spDec_eq_ok hs1
      rw [State.writeReg_reg_same, toNat_ofNat_pred]
      exact hf.sameMemoryExcept
    · rw [hsp, State.writeReg_reg_same]
  · exact ⟨fun j _ => ⟨rfl, rfl⟩, rfl, ⟨rfl, rfl, rfl⟩, fun _ _ _ _ _ _ => rfl,
      .inr ⟨s.takeFault_tookFault e, s.takeFault_sameRegs e, s.takeFault_sameMemory e⟩⟩

/-! ### Rules of every step -/

/-- Where a step changes FL, the instruction at pc completed and is a CMP. -/
theorem cmp_of_step_changes_fl {c : Config} {s t : State} (h : stepWith c s = .next t) (hne : t.fl ≠ s.fl) :
    (∃ a b rest, decodeWith c (s.codeBytes s.pc.toNat) = .ok (.cmp a b, rest)) ∧
      (t.fl = 0b00000001 ∨ t.fl = 0b00000010 ∨ t.fl = 0b00000100) := by
  obtain ⟨-, ⟨i, rest, hdec, -, hc⟩ | ⟨e, -, rfl⟩⟩ := stepWith_eq_next h
  · obtain hfl | ⟨a, b, va, vb, rfl, hfl⟩ := hc.frame.fl
    · exact absurd (hfl.trans (s.emitTrace_fl c)) hne
    · rw [hfl]
      exact ⟨⟨a, b, rest, hdec⟩, flOfFlags_compareFlags_cases va vb⟩
  · exact absurd (s.emitTrace_fl c) hne

/-- Settles O27: a fault changes no byte, and the one byte that a completed PUSH or CALL changes lies below SP. -/
theorem memoryChangesOnlyBelowTheStackPointer : Obligations.MemoryChangesOnlyBelowTheStackPointer := by
  intro c s t a h hne
  obtain ⟨-, ⟨i, rest, hdec, -, hc⟩ | ⟨e, -, rfl⟩⟩ := stepWith_eq_next h
  · rw [← s.emitTrace_byteAt c] at hne
    obtain ⟨r, hi⟩ : ∃ r, i = .push r ∨ i = .call r := by
      by_contra hi
      exact hne (hc.frame.sameMemory hi a)
    obtain ⟨-, hp, -⟩ := hc.sp_of_push_or_call hi
    have ha : a = ((s.emitTrace c).reg spIndex).toNat - 1 := by
      by_contra ha
      exact hne (hc.frame.sameMemoryExcept a ha)
    rw [State.emitTrace_reg] at hp ha
    refine ⟨by omega, r, rest, ?_⟩
    obtain rfl | rfl := hi
    · exact .inl hdec
    · exact .inr hdec
  · exact absurd (s.emitTrace_byteAt c a) hne

/-- A step into Faulted took a fault in the state before it. -/
theorem takeFault_of_step_faulted {c : Config} {s t : State} (h : stepWith c s = .next t) (ht : t.run = .faulted) :
    ∃ e, StepRaises c s e ∧ t = (s.emitTrace c).takeFault e := by
  obtain ⟨hr, ⟨i, -, -, -, hc⟩ | hfault⟩ := stepWith_eq_next h
  · exact absurd ht (hc.run_ne_faulted (by rwa [State.emitTrace_run]))
  · exact hfault

/-- Settles O28: a step into Faulted is a fault taken in the state with the trace record, which changes nothing else. -/
theorem fatalFaultsArePrecise : Obligations.FatalFaultsArePrecise := by
  intro c s t h ht
  obtain ⟨⟨cause, info⟩, -, rfl⟩ := takeFault_of_step_faulted h ht
  refine ⟨⟨cause, cause.code, info, by simp, by simp [State.status, RunState.code], ?_⟩, fun j _ => by simp,
    fun a => by simp, by simp, by simp, by simp, by simp, rfl, stepWith_of_faulted rfl⟩
  cases cause <;> decide

/-- Settles O29: from the invariant an opcode fetch beyond memory is one at 256, an unwritten register is none of SP, and a
CALL whose return address is above 255 stands at 254, because its two bytes lie inside memory. -/
theorem faultRecordsAreTheReachableOnes : Obligations.FaultRecordsAreTheReachableOnes := by
  intro c s t hinv h ht
  obtain ⟨-, hpc, hsp, -⟩ := State.inv_iff.1 hinv
  obtain ⟨e, he, rfl⟩ := takeFault_of_step_faulted h ht
  refine ⟨e.cause, e.info, by simp, ?_⟩
  cases he with
  | opcode hbeyond => exact .inl ⟨rfl, .inl (by simp only; omega)⟩
  | operand => exact .inl ⟨rfl, .inl rfl⟩
  | instr hin hraise =>
    cases hraise with
    | invalidRegister b hb =>
      have := b.isLt
      exact .inr (.inl ⟨rfl, by simp only; omega, by simp only; omega⟩)
    | uninitializedRegister r hr =>
      have hne : r.val ≠ 7 := fun h7 => by
        rw [show r = spIndex from Fin.ext h7, hsp] at hr
        cases hr
      exact .inr (.inr ⟨rfl, by simp only; omega, by simp only; omega⟩)
    | belowMemory => exact .inl ⟨rfl, .inr rfl⟩
    | aboveMemory => exact .inl ⟨rfl, .inl rfl⟩
    | returnAddress op1 hi hret =>
      rw [hi] at hin
      have hlen : (Instr.call op1).length = 2 := rfl
      exact .inl ⟨rfl, .inl (by simp only; omega)⟩

/-- Settles O30: a fault keeps the pc and a control transfer goes to an 8-bit target, so the pc went on sequentially. -/
theorem pcPasses255OnlySequentially : Obligations.PcPasses255OnlySequentially := by
  intro c s t _ h hpc ht
  obtain ⟨-, ⟨i, rest, hdec, hlen, hc⟩ | ⟨e, -, rfl⟩⟩ := stepWith_eq_next h
  · obtain hle | ⟨hnext, hseq⟩ := hc.pc_cases
    · omega
    · rw [State.emitTrace_pc] at hnext
      have htpc : t.pc.toNat = s.pc.toNat + i.length := by
        rw [hnext, BitVec.toNat_ofNat, Nat.mod_eq_of_lt (by omega)]
      refine ⟨by omega, i, rest, hdec, by omega, ?_, ?_, fun r => ⟨?_, ?_⟩⟩
      all_goals rintro rfl; exact hseq trivial
  · rw [State.takeFault_pc, State.emitTrace_pc] at ht
    omega

/-- Settles O31: the frame of the instruction at pc, from the state with the trace record, names the writer of each port. -/
theorem outAndDiagGrowByTheirInstructions : Obligations.OutAndDiagGrowByTheirInstructions := by
  intro c s t h
  obtain ⟨-, ⟨i, rest, hdec, -, hc⟩ | ⟨e, -, rfl⟩⟩ := stepWith_eq_next h
  · constructor
    · obtain hout | ⟨r, rfl, hout⟩ := hc.frame.out
      · exact .inl (by simpa using hout)
      · exact .inr ⟨r, rest, hdec, by simpa using hout⟩
    · obtain hdiag | ⟨b, rfl, hdiag⟩ := hc.frame.diag
      · exact .inl (by simpa using hdiag)
      · exact .inr ⟨b, rest, hdec, by simpa using hdiag⟩
  · exact ⟨.inl (by simp), .inl (by simp)⟩

/-- Settles O33: the record is emitted before the fetch, and no instruction and no fault changes the trace. -/
theorem eachStepEmitsOneTraceRecord : Obligations.EachStepEmitsOneTraceRecord := by
  intro c s t h
  refine ⟨s.traceRecord, ?_, rfl, rfl, rfl, rfl, rfl⟩
  rw [← State.emitTrace_trace]
  obtain ⟨-, ⟨i, -, -, -, hc⟩ | ⟨e, -, rfl⟩⟩ := stepWith_eq_next h
  · exact hc.frame.trace
  · rfl

end Sys2Proof.Machine
end

section
namespace Sys2Proof.Machine

/-! ### What does not depend on FL and on the trace log (10_state.md section 3, 40_cycle.md section 2)

Two states that differ in FL and in the trace log alone run alike: each primitive reads neither, so it answers the same
value, and a next state that differs in these two alone. -/

/-- The state with another FL and another trace log. -/
def State.retag (f : Byte) (log : List TraceRecord) (s : State) : State :=
  { s with fl := f, trace := log }

section
variable (f : Byte) (log : List TraceRecord) (s : State)

@[simp] theorem State.retag_pc : (s.retag f log).pc = s.pc := rfl
@[simp] theorem State.retag_readReg (j : Fin 8) : (s.retag f log).readReg j = s.readReg j := rfl
@[simp] theorem State.retag_readOperand (b : Byte) : (s.retag f log).readOperand b = s.readOperand b := rfl
@[simp] theorem State.retag_memRead (addr : Int) : (s.retag f log).memRead addr = s.memRead addr := rfl
@[simp] theorem State.retag_writeReg (j : Fin 8) (v : Byte) :
    (s.retag f log).writeReg j v = (s.writeReg j v).retag f log := rfl
@[simp] theorem State.retag_advance (n : Nat) : (s.retag f log).advance n = (s.advance n).retag f log := rfl
@[simp] theorem State.retag_jump (v : Byte) : (s.retag f log).jump v = (s.jump v).retag f log := rfl
@[simp] theorem State.retag_emit (v : Byte) : (s.retag f log).emit v = (s.emit v).retag f log := rfl

@[simp] theorem State.retag_memWrite (addr : Int) (v : Byte) :
    (s.retag f log).memWrite addr v = State.retag f log <$> s.memWrite addr v := by
  rw [State.memWrite, State.memWrite]
  split <;> rfl

@[simp] theorem State.retag_spDec : (s.retag f log).spDec = State.retag f log <$> s.spDec := by
  simp only [State.spDec, State.retag_readReg, map_bind]
  congr 1; funext sp
  split <;> rfl

@[simp] theorem State.retag_spInc : (s.retag f log).spInc = State.retag f log <$> s.spInc := by
  simp only [State.spInc, State.retag_readReg, map_bind]
  congr 1; funext sp
  split <;> rfl

end

theorem State.commit_retag {s t : State} {r : Except Raise State} (f : Byte) (log : List TraceRecord)
    (h : s.commit r = .next t) : (s.retag f log).commit (State.retag f log <$> r) = .next (t.retag f log) := by
  obtain rfl | ⟨e, rfl, rfl⟩ := State.commit_eq_next h <;> rfl

theorem aluAction_add (op1 op2 : Byte) (s : State) :
    aluAction aluAdd op1 op2 s = (do
      let a ← regIndex op1
      let b ← regIndex op2
      let va ← s.readReg a
      let vb ← s.readReg b
      .ok ((s.writeReg a (va + vb)).advance 3)) := by
  simp only [aluAction, alu_add]
  rfl

theorem aluAction_mul (op1 op2 : Byte) (s : State) :
    aluAction aluMul op1 op2 s = (do
      let a ← regIndex op1
      let b ← regIndex op2
      let va ← s.readReg a
      let vb ← s.readReg b
      .ok ((s.writeReg a (va * vb)).advance 3)) := by
  simp only [aluAction, alu_mul]
  rfl

/-- The FL that a CMP writes, or what it raises. -/
def State.cmpFl (s : State) (op1 op2 : Byte) : Except Raise Byte := do
  let a ← regIndex op1
  let b ← regIndex op2
  let va ← s.readReg a
  let vb ← s.readReg b
  .ok (flOfFlags (compareFlags va vb))

theorem exec_cmp (op1 op2 : Byte) (s : State) :
    exec (.cmp op1 op2) s = s.commit (s.cmpFl op1 op2 >>= fun v => .ok ((s.writeFl v).advance 3)) := by
  simp only [exec, execCmp, aluAction, alu_cmp, State.cmpFl, bind_assoc]
  rfl

/-- An instruction whose action runs alike answers alike. -/
theorem exec_retag_of_action {i : Instr} {s t : State} {f : Byte} {log : List TraceRecord}
    {action : State → Except Raise State} (hexec : ∀ u, exec i u = u.commit (action u))
    (haction : action (s.retag f log) = State.retag f log <$> action s) (h : exec i s = .next t) :
    exec i (s.retag f log) = .next (t.retag f log) := by
  rw [hexec] at h
  rw [hexec, haction]
  exact State.commit_retag f log h

/-- An instruction other than CMP neither reads FL, but for bit 0 in JEQ and JNE, nor writes it. -/
theorem exec_retag_of_ne_cmp {i : Instr} {s t : State} {f : Byte} (hcmp : ∀ a b, i ≠ .cmp a b)
    (hbranch : (∃ r, i = .jeq r ∨ i = .jne r) → f.getLsbD 0 = s.fl.getLsbD 0) (log : List TraceRecord)
    (h : exec i s = .next t) : exec i (s.retag f log) = .next (t.retag f log) := by
  cases i
  case cmp a b => exact absurd rfl (hcmp a b)
  case hlt => cases h; rfl
  case unrecognized => cases h; rfl
  case ldi => exact exec_retag_of_action (fun _ => rfl) (by simp) h
  case prn => exact exec_retag_of_action (fun _ => rfl) (by simp) h
  case add => exact exec_retag_of_action (fun _ => rfl) (by simp [aluAction_add]) h
  case mul => exact exec_retag_of_action (fun _ => rfl) (by simp [aluAction_mul]) h
  case push => exact exec_retag_of_action (fun _ => rfl) (by simp) h
  case pop => exact exec_retag_of_action (fun _ => rfl) (by simp) h
  case call => exact exec_retag_of_action (fun _ => rfl) (by simp [apply_ite (State.retag f log <$> ·)]) h
  case ret => exact exec_retag_of_action (fun _ => rfl) (by simp) h
  case jmp => exact exec_retag_of_action (fun _ => rfl) (by simp) h
  case jeq r =>
    have hflag : (s.retag f log).equalFlag = s.equalFlag := hbranch ⟨r, .inl rfl⟩
    exact exec_retag_of_action (fun _ => rfl) (by simp [branchAction, hflag, apply_ite (State.retag f log)]) h
  case jne r =>
    have hflag : (s.retag f log).equalFlag = s.equalFlag := hbranch ⟨r, .inr rfl⟩
    exact exec_retag_of_action (fun _ => rfl) (by simp [branchAction, hflag, apply_ite (State.retag f log)]) h

/-- A CMP computes the FL it writes from its registers alone, and where it faults it writes none. -/
theorem exec_cmp_retag {op1 op2 : Byte} {s t : State} (f : Byte) (log : List TraceRecord)
    (h : exec (.cmp op1 op2) s = .next t) :
    ∃ f', exec (.cmp op1 op2) (s.retag f log) = .next (t.retag f' log) ∧ (f = s.fl → f' = t.fl) := by
  have hfl : (s.retag f log).cmpFl op1 op2 = s.cmpFl op1 op2 := rfl
  rw [exec_cmp] at h
  rw [exec_cmp, hfl]
  cases hv : s.cmpFl op1 op2 with
  | ok v =>
    rw [hv] at h
    cases h
    exact ⟨v, rfl, fun _ => rfl⟩
  | error e =>
    rw [hv] at h
    cases h
    exact ⟨f, rfl, id⟩

/-- Whatever FL and the trace log are replaced by, an instruction leaves the same state but for them; where the trace log
alone is replaced, FL too is the same. -/
theorem exec_retag {i : Instr} {s t : State} {f : Byte}
    (hbranch : (∃ r, i = .jeq r ∨ i = .jne r) → f.getLsbD 0 = s.fl.getLsbD 0) (log : List TraceRecord)
    (h : exec i s = .next t) :
    ∃ f', exec i (s.retag f log) = .next (t.retag f' log) ∧ (f = s.fl → f' = t.fl) := by
  by_cases hcmp : ∀ a b, i ≠ .cmp a b
  · refine ⟨f, exec_retag_of_ne_cmp hcmp hbranch log h, fun hf => hf.trans ?_⟩
    obtain hc | ⟨e, -, rfl⟩ := exec_eq_next h
    · exact (hc.frame.fl_eq hcmp).symm
    · rfl
  · push Not at hcmp
    obtain ⟨a, b, rfl⟩ := hcmp
    exact exec_cmp_retag f log h

theorem exec_trace_eq {i : Instr} {s t : State} (h : exec i s = .next t) : t.trace = s.trace := by
  obtain hc | ⟨e, -, rfl⟩ := exec_eq_next h
  · exact hc.frame.trace
  · rfl

/-- Settles O26: replacing FL is a change that every action commutes with, and a CMP overwrites FL in both runs. -/
theorem onlyTheEqualFlagIsRead : Obligations.OnlyTheEqualFlagIsRead := by
  intro i s f hbranch
  obtain ⟨t, ht⟩ := exists_exec_eq_next i s
  obtain ⟨f', ht', -⟩ := exec_retag hbranch s.trace ht
  refine ⟨t, t.retag f' s.trace, ht, ht', ?_⟩
  rw [← exec_trace_eq ht]
  rfl

/-- A JEQ or a JNE writes no register, whether or not it is taken and whether or not it faults. -/
theorem exec_branch_sameRegs {i : Instr} {r : Byte} {s t : State} (hi : i = .jeq r ∨ i = .jne r)
    (h : exec i s = .next t) : SameRegsExcept [] s t := by
  obtain hc | ⟨e, -, rfl⟩ := exec_eq_next h
  · have hnone : ∀ j, ¬ MayWrite i j := by obtain rfl | rfl := hi <;> exact fun _ => id
    exact fun j _ => hc.frame.regs j (hnone j)
  · exact s.takeFault_sameRegs e

/-- Settles O25: the first clause is the frame of FL; for the second, JEQ and JNE write no register, and any other
instruction runs alike whatever FL holds. -/
theorem onlyCmpWritesTheFlags : Obligations.OnlyCmpWritesTheFlags := by
  refine ⟨fun c s t => cmp_of_step_changes_fl, fun i s t t' f h h' => ?_⟩
  by_cases hbranch : ∃ r, i = .jeq r ∨ i = .jne r
  · obtain ⟨r, hi⟩ := hbranch
    intro j hj
    obtain ⟨hreg, hwritten⟩ := exec_branch_sameRegs hi h j hj
    obtain ⟨hreg', hwritten'⟩ := exec_branch_sameRegs hi h' j hj
    exact ⟨hreg'.trans hreg.symm, hwritten'.trans hwritten.symm⟩
  · obtain ⟨f', hf', -⟩ := exec_retag (f := f) (fun hb => absurd hb hbranch) s.trace h
    have ht' : t' = t.retag f' s.trace := by
      have heq := h'.symm.trans hf'
      cases heq
      rfl
    subst ht'
    exact fun _ _ => ⟨rfl, rfl⟩

/-! ### The trace -/

@[simp] theorem State.eraseTrace_emitTrace (c : Config) (s : State) : (s.emitTrace c).eraseTrace = s.eraseTrace := by
  unfold State.emitTrace
  split <;> rfl

/-- States that differ at most in their trace logs are one state but for the log. -/
theorem State.eq_retag_of_eraseTrace_eq {s s' : State} (h : s.eraseTrace = s'.eraseTrace) :
    s' = s.retag s.fl s'.trace := by
  cases s
  cases s'
  cases h
  rfl

/-- Fetch and decode look at neither FL nor the trace log nor TRACE_ENABLED. -/
theorem State.fetchInstr_retag (c : Config) (on1 on2 : Bool) (f : Byte) (log : List TraceRecord) (s : State) :
    (s.retag f log).fetchInstr { c with traceEnabled := on2 } = s.fetchInstr { c with traceEnabled := on1 } := rfl

/-- Under parameters that fetch alike, states that differ at most in their trace logs step to such states. -/
theorem stepWith_eraseTrace_eq {c1 c2 : Config} {s1 s2 t1 : State}
    (hfetch : ∀ f log u, (State.retag f log u).fetchInstr c2 = u.fetchInstr c1)
    (hs : s1.eraseTrace = s2.eraseTrace) (h : stepWith c1 s1 = .next t1) :
    ∃ t2, stepWith c2 s2 = .next t2 ∧ t1.eraseTrace = t2.eraseTrace := by
  obtain ⟨hr1, -⟩ := stepWith_eq_next h
  have hr2 : s2.run = .running := (congrArg State.run hs).symm.trans hr1
  have hretag : s2.emitTrace c2 = (s1.emitTrace c1).retag (s1.emitTrace c1).fl (s2.emitTrace c2).trace :=
    State.eq_retag_of_eraseTrace_eq (by simpa using hs)
  have hfetch2 : (s2.emitTrace c2).fetchInstr c2 = (s1.emitTrace c1).fetchInstr c1 := by rw [hretag, hfetch]
  cases hf : (s1.emitTrace c1).fetchInstr c1 with
  | ok i =>
    rw [stepWith_of_fetch_ok hr1 hf] at h
    rw [stepWith_of_fetch_ok hr2 (hfetch2.trans hf), hretag]
    obtain ⟨f', ht', hf'⟩ := exec_retag (fun _ => rfl) _ h
    refine ⟨_, ht', ?_⟩
    rw [hf' rfl]
    rfl
  | error e =>
    rw [stepWith_of_fetch_error hr1 hf] at h
    rw [stepWith_of_fetch_error hr2 (hfetch2.trans hf), hretag]
    cases h
    exact ⟨_, rfl, rfl⟩

/-- Settles O32: after the step's record, two such states are still one but for the log, and fetch and execution run
alike. -/
theorem traceHasNoEffectOnExecution : Obligations.TraceHasNoEffectOnExecution :=
  fun c on1 on2 _ _ _ hs h => stepWith_eraseTrace_eq (State.fetchInstr_retag c on1 on2) hs h

end Sys2Proof.Machine
end

section
namespace Sys2Proof.Machine

/-! ### The canonical memory (20_memory.md section 1) -/

/-- The first cell of a canonical memory does not read as an unlisted one. -/
theorem Memory.exists_readByte_ne_unlisted {a : Nat} {b : Byte} {m : Memory} (h : Memory.wf ((a, b) :: m) = true) :
    Memory.readByte ((a, b) :: m) a ≠ Memory.unlisted := by
  obtain ⟨-, hb, -, -⟩ := (Memory.wf_cons a b m).1 h
  rwa [Memory.readByte_cons, if_pos rfl]

/-- Below its first cell a canonical memory lists nothing. -/
theorem Memory.readByte_of_lt_head {a x : Nat} {b : Byte} {m : Memory} (h : Memory.wf ((a, b) :: m) = true)
    (hx : x < a) : Memory.readByte ((a, b) :: m) x = Memory.unlisted := by
  obtain ⟨-, -, hlt, -⟩ := (Memory.wf_cons a b m).1 h
  refine Memory.readByte_of_lt fun cell hc => ?_
  obtain rfl | hc := List.mem_cons.1 hc
  · exact hx
  · exact hx.trans (hlt cell hc)

/-- The first cells of canonical memories that read alike stand at one address. -/
theorem Memory.head_le_of_readByte_eq {a a' : Nat} {b b' : Byte} {m m' : Memory}
    (h : Memory.wf ((a, b) :: m) = true) (h' : Memory.wf ((a', b') :: m') = true)
    (hread : ∀ x, Memory.readByte ((a, b) :: m) x = Memory.readByte ((a', b') :: m') x) : a' ≤ a := by
  by_contra hlt
  have hne := Memory.exists_readByte_ne_unlisted h
  rw [hread a, Memory.readByte_of_lt_head h' (by omega)] at hne
  exact hne rfl

theorem Memory.eq_of_readByte_eq {m m' : Memory} (h : m.wf = true) (h' : m'.wf = true)
    (hread : ∀ a, m.readByte a = m'.readByte a) : m = m' := by
  induction m generalizing m' with
  | nil =>
    cases m' with
    | nil => rfl
    | cons cell' m' => exact absurd (hread cell'.1).symm (Memory.exists_readByte_ne_unlisted h')
  | cons cell m ih =>
    cases m' with
    | nil => exact absurd (hread cell.1) (Memory.exists_readByte_ne_unlisted h)
    | cons cell' m' =>
      obtain ⟨a, b⟩ := cell
      obtain ⟨a', b'⟩ := cell'
      obtain rfl : a = a' := Nat.le_antisymm (Memory.head_le_of_readByte_eq h' h fun x => (hread x).symm)
        (Memory.head_le_of_readByte_eq h h' hread)
      obtain rfl : b = b' := by simpa [Memory.readByte_cons] using hread a
      obtain ⟨-, -, hlt, hwf⟩ := (Memory.wf_cons a b m).1 h
      obtain ⟨-, -, hlt', hwf'⟩ := (Memory.wf_cons a b m').1 h'
      rw [ih hwf hwf' fun x => ?_]
      by_cases hx : a = x
      · subst hx
        rw [Memory.readByte_of_lt hlt, Memory.readByte_of_lt hlt']
      · simpa [Memory.readByte_cons, hx] using hread x

/-- Settles O42: by induction on the lists; below the first cell nothing is listed, so the first cells agree. -/
theorem memoriesThatReadAlikeAreEqual : Obligations.MemoriesThatReadAlikeAreEqual :=
  fun _ _ => Memory.eq_of_readByte_eq

/-- The first byte fetched at an address of memory is the byte there; beyond 255 there is none. -/
theorem State.codeBytes_head? (s : State) (a : Nat) :
    (s.codeBytes a).head? = if a ≤ 255 then some (s.byteAt a) else none := by
  rw [State.codeBytes_eq_take, List.head?_take]
  by_cases h : a ≤ 255
  · rw [if_neg (by omega), if_pos h]; rfl
  · rw [if_pos (by omega), if_neg h]

/-- Settles O43: a write changes the one byte it names, and a fetch begins with the byte at its address. -/
theorem writtenByteIsFetchedNext : Obligations.WrittenByteIsFetchedNext := by
  intro s t addr v hwf hwrite
  obtain ⟨⟨hlo, hhi⟩, -, hsame, hwritten⟩ := State.memWrite_eq_ok hwrite
  obtain ⟨-, hv⟩ := hwritten hwf
  constructor
  · rw [State.codeBytes_head?, if_pos (by omega), hv]
  · intro a ha
    rw [State.codeBytes_head?, State.codeBytes_head?, hsame a ha]

/-! ### The launch (20_memory.md section 5, 70_reset_and_hazards.md section 2) -/

theorem State.loadBytes_cons {s : State} {a : Nat} (ha : a ≤ 255) (v : Byte) (rest : List Byte) :
    s.loadBytes a (v :: rest) = (s.setByte a v).loadBytes (a + 1) rest := by
  have hwrite : s.loadPortWrite a v = .ok (s.setByte a v) := by
    rw [State.loadPortWrite, State.memWrite, if_pos ⟨by omega, by omega⟩, Int.toNat_natCast]
  rw [State.loadBytes, hwrite]
  rfl

/-- Bytes that fit in memory from an address on are placed there and change nothing else. -/
theorem State.loadBytes_eq_ok {s : State} {a : Nat} {bytes : List Byte} (hwf : s.mem.wf = true)
    (hfit : a + bytes.length ≤ 256) :
    ∃ t, s.loadBytes a bytes = .ok t ∧ t.mem.wf = true ∧ t = { s with mem := t.mem } ∧
      ∀ x, t.byteAt x = if a ≤ x ∧ x < a + bytes.length then bytes.getD (x - a) 0x00 else s.byteAt x := by
  induction bytes generalizing s a with
  | nil =>
    refine ⟨s, rfl, hwf, rfl, fun x => ?_⟩
    rw [if_neg]
    simp
  | cons v rest ih =>
    rw [List.length_cons] at hfit
    have hwf' : (s.setByte a v).mem.wf = true := Memory.wf_writeByte hwf (by omega) v
    obtain ⟨t, ht, htwf, htmem, hbytes⟩ := ih (a := a + 1) hwf' (by omega)
    refine ⟨t, by rw [State.loadBytes_cons (by omega), ht], htwf, htmem, fun x => ?_⟩
    rw [hbytes x, List.length_cons]
    obtain hx | rfl | hx : x < a ∨ x = a ∨ a < x := Nat.lt_trichotomy x a
    · rw [if_neg (by omega), if_neg (by omega), State.setByte_byteAt_of_ne (by omega)]
    · rw [if_neg (by omega), if_pos (by omega), State.setByte_byteAt_same hwf, Nat.sub_self, List.getD_cons_zero]
    · obtain ⟨k, hk⟩ : ∃ k, x - a = k + 1 := ⟨x - a - 1, by omega⟩
      rw [hk, List.getD_cons_succ, State.setByte_byteAt_of_ne (by omega), show x - (a + 1) = k by omega]
      exact if_congr (by omega) rfl rfl

/-- Bytes that do not fit raise at address 256. -/
theorem State.loadBytes_eq_error {s : State} {a : Nat} {bytes : List Byte} (ha : a ≤ 256)
    (hlong : 256 < a + bytes.length) : s.loadBytes a bytes = .error ⟨.addressOutOfRange, 256⟩ := by
  induction bytes generalizing s a with
  | nil => simp at hlong; omega
  | cons v rest ih =>
    rw [List.length_cons] at hlong
    by_cases h : a ≤ 255
    · rw [State.loadBytes_cons h]
      exact ih (by omega) (by omega)
    · obtain rfl : a = 256 := by omega
      rfl

/-- Settles O44: an image of at most 256 bytes fits from address 0 on, and a longer one meets the check of address 256. -/
theorem launchPlacesTheImage : Obligations.LaunchPlacesTheImage := by
  refine fun image => ⟨fun hfit => ?_, fun hlong => ?_⟩
  · obtain ⟨t, ht, hwf, hmem, hbytes⟩ := State.loadBytes_eq_ok (s := State.reset) (a := 0) (bytes := image) rfl (by omega)
    refine ⟨t, by rw [State.launch, ht], fun a => ?_, hwf, hmem⟩
    rw [hbytes a, Nat.sub_zero, Nat.zero_add]
    by_cases ha : a < image.length
    · rw [if_pos ⟨by omega, ha⟩]
    · rw [if_neg (fun h => ha h.2), List.getD_eq_default _ _ (by omega)]
      rfl
  · rw [State.launch, State.loadBytes_eq_error (by omega) (by omega)]

/-! ### The ALU's kinds (41_alu.md R101) -/

/-- Settles O45: each of the three other kinds has its output equation. -/
theorem aluRaisesOnlyOutsideItsKinds : Obligations.AluRaisesOnlyOutsideItsKinds := by
  intro kind va vb
  refine ⟨fun hk => ?_, fun hk => by rw [hk]; rfl⟩
  have hall : ∀ k : AluKind, k ≠ 0b11 → k = aluAdd ∨ k = aluMul ∨ k = aluCmp := by decide
  obtain rfl | rfl | rfl := hall kind hk
  · exact ⟨_, alu_add va vb⟩
  · exact ⟨_, alu_mul va vb⟩
  · exact ⟨_, alu_cmp va vb⟩

/-! ### Reset and the status port -/

/-- Settles O1: the memory of the reset state lists no cell, and SP alone is written. -/
theorem resetStateHoldsTheSpecifiedValues : Obligations.ResetStateHoldsTheSpecifiedValues :=
  ⟨fun _ => rfl, by decide, by decide, rfl, rfl, rfl, rfl, rfl, rfl⟩

/-- Settles O2: the invariant is decidable, and the reset state is a literal. -/
theorem resetStateMeetsTheInvariant : Obligations.ResetStateMeetsTheInvariant := by
  unfold Obligations.ResetStateMeetsTheInvariant
  decide

theorem State.status_fst (s : State) : s.status.1 = s.run.code := rfl

theorem State.status_snd_of_fault {s : State} {cause : FaultCause} {pc : PcWord} {info : Int}
    (h : s.fault = some ⟨cause, pc, info⟩) : s.status.2 = some (cause.code, pc.toNat, info) := by
  rw [State.status, h]
  rfl

/-- Settles O49: the status port shows the codes of the run state and of the record's cause, which are these numbers. -/
theorem statusPortShowsTheNumericCodes : Obligations.StatusPortShowsTheNumericCodes := by
  intro s
  refine ⟨fun h => ?_, fun h => ?_, fun h => ?_, fun h => ?_, fun pc info => ⟨?_, ?_, ?_, ?_⟩⟩
  · rw [State.status_fst, h]; rfl
  · rw [State.status_fst, h]; rfl
  · rw [State.status_fst, h]; rfl
  · rw [State.status, h]; rfl
  all_goals exact State.status_snd_of_fault

end Sys2Proof.Machine
end

section
namespace Sys2Proof

/-! ### One opcode byte for each row (30_encoding.md R73, default parameters) -/

/-- A byte of a row without operands decodes alone. -/
theorem decode_of_row_zero {b : Byte} {row : Row} (hrow : rowOf Config.default b = row) (h : operandCount row = 0)
    (rest : List Byte) : decode (b :: rest) = .ok (instrOf row b 0 0, rest) := by
  subst hrow
  exact decodeWith_of_operandCount_zero h rest

/-- A byte of a row with one operand decodes with the byte after it. -/
theorem decode_of_row_one {b : Byte} {row : Row} (hrow : rowOf Config.default b = row) (h : operandCount row = 1)
    (op1 : Byte) (rest : List Byte) : decode (b :: op1 :: rest) = .ok (instrOf row b op1 0, rest) := by
  subst hrow
  exact decodeWith_of_operandCount_one h op1 rest

/-- A byte of a row with two operands decodes with the two bytes after it. -/
theorem decode_of_row_two {b : Byte} {row : Row} (hrow : rowOf Config.default b = row) (h : operandCount row = 2)
    (op1 op2 : Byte) (rest : List Byte) : decode (b :: op1 :: op2 :: rest) = .ok (instrOf row b op1 op2, rest) := by
  subst hrow
  rw [decode, decodeWith_two_bytes, h]
  rfl

section
variable (op1 op2 : Byte) (rest : List Byte)

theorem decode_prn : decode (0b01000111 :: op1 :: rest) = .ok (.prn op1, rest) :=
  decode_of_row_one (row := .prn) (by decide) rfl op1 rest
theorem decode_add : decode (0b10100000 :: op1 :: op2 :: rest) = .ok (.add op1 op2, rest) :=
  decode_of_row_two (row := .add) (by decide) rfl op1 op2 rest
theorem decode_mul : decode (0b10100010 :: op1 :: op2 :: rest) = .ok (.mul op1 op2, rest) :=
  decode_of_row_two (row := .mul) (by decide) rfl op1 op2 rest
theorem decode_push : decode (0b01000101 :: op1 :: rest) = .ok (.push op1, rest) :=
  decode_of_row_one (row := .push) (by decide) rfl op1 rest
theorem decode_pop : decode (0b01000110 :: op1 :: rest) = .ok (.pop op1, rest) :=
  decode_of_row_one (row := .pop) (by decide) rfl op1 rest
theorem decode_call : decode (0b01010000 :: op1 :: rest) = .ok (.call op1, rest) :=
  decode_of_row_one (row := .call) (by decide) rfl op1 rest
theorem decode_ret : decode (0b00010001 :: rest) = .ok (.ret, rest) :=
  decode_of_row_zero (row := .ret) (by decide) rfl rest
theorem decode_cmp : decode (0b10100111 :: op1 :: op2 :: rest) = .ok (.cmp op1 op2, rest) :=
  decode_of_row_two (row := .cmp) (by decide) rfl op1 op2 rest
theorem decode_jmp : decode (0b01010100 :: op1 :: rest) = .ok (.jmp op1, rest) :=
  decode_of_row_one (row := .jmp) (by decide) rfl op1 rest
theorem decode_jeq : decode (0b01010101 :: op1 :: rest) = .ok (.jeq op1, rest) :=
  decode_of_row_one (row := .jeq) (by decide) rfl op1 rest
theorem decode_jne : decode (0b01010110 :: op1 :: rest) = .ok (.jne op1, rest) :=
  decode_of_row_one (row := .jne) (by decide) rfl op1 rest

end

/-- Settles O3: each word is covered by its instruction's decode equation; no row carries 0xFF. -/
theorem writtenOutBytesDecode : Obligations.WrittenOutBytesDecode :=
  ⟨Machine.decode_hlt [], Machine.decode_ldi 3 254 [], decode_prn 5 [], decode_add 1 2 [], decode_mul 7 6 [],
    decode_push 4 [], decode_pop 2 [], decode_call 1 [], decode_ret [], decode_cmp 0 255 [], decode_jmp 3 [],
    decode_jeq 3 [], decode_jne 3 [], decodeWith_of_unrecognized (c := Config.default) (b := 255) (by decide) [1]⟩

end Sys2Proof

namespace Sys2Proof.Machine

/-! ### Instructions of one register operand that is read: PRN, JMP, JEQ and JNE -/

theorem exec_prn_eq_commit (op1 : Byte) (s : State) :
    exec (.prn op1) s = s.commit (s.readOperand op1 >>= fun v => .ok ((s.emit v).advance 2)) := rfl

theorem exec_jmp_eq_commit (op1 : Byte) (s : State) :
    exec (.jmp op1) s = s.commit (s.readOperand op1 >>= fun v => .ok (s.jump v)) := rfl

theorem exec_jeq_eq_commit (op1 : Byte) (s : State) :
    exec (.jeq op1) s =
      s.commit (s.readOperand op1 >>= fun v => .ok (if s.equalFlag then s.jump v else s.advance 2)) := rfl

theorem exec_jne_eq_commit (op1 : Byte) (s : State) :
    exec (.jne op1) s =
      s.commit (s.readOperand op1 >>= fun v => .ok (if !s.equalFlag then s.jump v else s.advance 2)) := rfl

section
variable {i : Instr} {op1 op2 : Byte} {s : State}

/-- An instruction that begins by reading its register operand has the two faults of that read, whatever follows. -/
theorem oneOperandFaults_of_readOperand {f : Byte → Except Raise State}
    (h : exec i s = s.commit (s.readOperand op1 >>= f)) : OneOperandFaults i op1 s := by
  constructor
  · intro hgt
    rw [h, State.readOperand_of_gt hgt]
    rfl
  · rintro r rfl hw
    rw [h, State.readOperand_regOperand, State.readReg_of_unwritten hw]
    rfl

/-- With its register written, such an instruction goes on with the register's value. -/
theorem exec_of_readOperand {f : Byte → State} {r : Fin 8}
    (h : exec i s = s.commit (s.readOperand (regOperand r) >>= fun v => .ok (f v))) (hw : s.isWritten r = true) :
    exec i s = .next (f (s.reg r)) := by
  rw [h, State.readOperand_regOperand, State.readReg_of_written hw]
  rfl

/-! ### Instructions of two register operands that are read: ADD, MUL and CMP -/

/-- An ALU instruction has the faults of decoding and of reading its two operands, whatever its kind. -/
theorem twoOperandFaults_of_aluAction {kind : AluKind} (h : exec i s = s.commit (aluAction kind op1 op2 s)) :
    TwoOperandFaults i op1 op2 s := by
  refine ⟨fun hgt => ?_, fun hle hgt => ?_, ?_, ?_⟩
  · rw [h, aluAction, regIndex_of_gt hgt]
    rfl
  · obtain ⟨a, -, ha⟩ | ⟨hgt1, -⟩ := regIndex_cases op1
    · rw [h, aluAction, ha, regIndex_of_gt hgt]
      rfl
    · omega
  · rintro a b rfl rfl ha
    rw [h, aluAction, regIndex_regOperand, regIndex_regOperand]
    simp only [bind, Except.bind, State.readReg_of_unwritten ha]
    rfl
  · rintro a b rfl rfl ha hb
    rw [h, aluAction, regIndex_regOperand, regIndex_regOperand]
    simp only [bind, Except.bind, State.readReg_of_written ha, State.readReg_of_unwritten hb]
    rfl

/-- With both registers written, an ALU instruction writes the ALU's output and goes on by 3. -/
theorem exec_of_aluAction {kind : AluKind} {a b : Fin 8} {output : AluOutput}
    (h : exec i s = s.commit (aluAction kind (regOperand a) (regOperand b) s)) (ha : s.isWritten a = true)
    (hb : s.isWritten b = true) (halu : alu kind (s.reg a) (s.reg b) = .ok output) :
    exec i s = .next ((s.writeAluOutput a output).advance 3) := by
  rw [h, aluAction, regIndex_regOperand, regIndex_regOperand]
  simp only [bind, Except.bind, State.readReg_of_written ha, State.readReg_of_written hb, halu]
  rfl

end

/-- Settles O9: PRN reads its register and appends the value. -/
theorem prnEmitsTheRegister : Obligations.PrnEmitsTheRegister := by
  intro op1 s
  refine ⟨decode_prn op1, ?_, oneOperandFaults_of_readOperand (exec_prn_eq_commit op1 s)⟩
  rintro r rfl hw hpc
  have hpc' : ((s.emit (s.reg r)).advance 2).pc.toNat = s.pc.toNat + 2 :=
    State.advance_pc_toNat (s := s.emit (s.reg r)) hpc (by decide)
  exact ⟨_, exec_of_readOperand (exec_prn_eq_commit _ s) hw, rfl, hpc', fun _ _ => ⟨rfl, rfl⟩, fun _ => rfl, rfl,
    ⟨rfl, rfl⟩, rfl, rfl⟩

/-- A register result changes its register and the pc alone. -/
theorem State.result_effect {s : State} (hpc : s.pc.toNat ≤ 255) (a : Fin 8) (v : Byte) :
    ((s.writeReg a v).advance 3).isWritten a = true ∧ ((s.writeReg a v).advance 3).pc.toNat = s.pc.toNat + 3 ∧
      SameRegsExcept [a] s ((s.writeReg a v).advance 3) ∧ SameMemory s ((s.writeReg a v).advance 3) ∧
      ((s.writeReg a v).advance 3).fl = s.fl ∧ SameRun s ((s.writeReg a v).advance 3) ∧
      SamePorts s ((s.writeReg a v).advance 3) :=
  ⟨s.writeReg_isWritten_same a v, State.advance_pc_toNat (s := s.writeReg a v) hpc (by decide),
    s.writeReg_sameRegsExcept a v, fun _ => rfl, rfl, ⟨rfl, rfl⟩, rfl, rfl, rfl⟩

/-- Settles O10: ADD writes the ALU's sum, which the byte holds modulo 256. -/
theorem addWritesTheSumModulo256 : Obligations.AddWritesTheSumModulo256 := by
  intro op1 op2 s
  refine ⟨decode_add op1 op2, ?_, twoOperandFaults_of_aluAction (kind := aluAdd) rfl⟩
  rintro a b rfl rfl ha hb hpc
  have hsum : ((s.writeReg a (s.reg a + s.reg b)).reg a).toNat = ((s.reg a).toNat + (s.reg b).toNat) % 256 := by
    rw [State.writeReg_reg_same, BitVec.toNat_add]
  exact ⟨_, exec_of_aluAction (kind := aluAdd) rfl ha hb (alu_add _ _), hsum, State.result_effect hpc a _⟩

/-- Settles O11: MUL writes the ALU's product, which the byte holds modulo 256. -/
theorem mulWritesTheProductModulo256 : Obligations.MulWritesTheProductModulo256 := by
  intro op1 op2 s
  refine ⟨decode_mul op1 op2, ?_, twoOperandFaults_of_aluAction (kind := aluMul) rfl⟩
  rintro a b rfl rfl ha hb hpc
  have hprod : ((s.writeReg a (s.reg a * s.reg b)).reg a).toNat = ((s.reg a).toNat * (s.reg b).toNat) % 256 := by
    rw [State.writeReg_reg_same, BitVec.toNat_mul]
  exact ⟨_, exec_of_aluAction (kind := aluMul) rfl ha hb (alu_mul _ _), hprod, State.result_effect hpc a _⟩

/-- The three flags of a comparison say which of the three orders holds. -/
theorem compareFlags_spec {s : State} {va vb : Byte} (h : s.fl = flOfFlags (compareFlags va vb)) :
    (s.equalFlag = true ↔ va.toNat = vb.toNat) ∧ (s.greaterFlag = true ↔ vb.toNat < va.toNat) ∧
      (s.lessFlag = true ↔ va.toNat < vb.toNat) := by
  rw [State.equalFlag, State.greaterFlag, State.lessFlag, h, compareFlags]
  obtain hlt | heq | hgt := Nat.lt_trichotomy va.toNat vb.toNat
  · rw [if_neg (by omega), if_neg (by omega)]
    exact ⟨iff_of_false (by decide) (by omega), iff_of_false (by decide) (by omega), iff_of_true (by decide) hlt⟩
  · rw [if_pos heq]
    exact ⟨iff_of_true (by decide) heq, iff_of_false (by decide) (by omega), iff_of_false (by decide) (by omega)⟩
  · rw [if_neg (by omega), if_pos hgt]
    exact ⟨iff_of_false (by decide) (by omega), iff_of_true (by decide) hgt, iff_of_false (by decide) (by omega)⟩

/-- Settles O12: CMP writes the whole of FL from the comparison's flags. -/
theorem cmpSetsExactlyOneFlag : Obligations.CmpSetsExactlyOneFlag := by
  intro op1 op2 s
  refine ⟨decode_cmp op1 op2, ?_, twoOperandFaults_of_aluAction (kind := aluCmp) rfl⟩
  rintro a b rfl rfl ha hb hpc
  refine ⟨_, exec_of_aluAction (kind := aluCmp) rfl ha hb (alu_cmp _ _), ?_⟩
  obtain ⟨heq, hgt, hlt⟩ := compareFlags_spec (va := s.reg a) (vb := s.reg b)
    (s := (s.writeAluOutput a (.flags (compareFlags (s.reg a) (s.reg b)))).advance 3) rfl
  exact ⟨heq, hgt, hlt, flOfFlags_compareFlags_cases _ _, State.advance_pc_toNat (s := s.writeFl _) hpc (by decide),
    fun _ _ => ⟨rfl, rfl⟩, fun _ => rfl, ⟨rfl, rfl⟩, rfl, rfl, rfl⟩

/-- Settles O17: JMP reads its register and jumps. -/
theorem jmpGoesToTheRegister : Obligations.JmpGoesToTheRegister := by
  intro op1 s
  refine ⟨decode_jmp op1, ?_, oneOperandFaults_of_readOperand (exec_jmp_eq_commit op1 s)⟩
  rintro r rfl hw
  exact ⟨_, exec_of_readOperand (exec_jmp_eq_commit _ s) hw, State.jump_pc_toNat s _, fun _ _ => ⟨rfl, rfl⟩, fun _ => rfl,
    rfl, ⟨rfl, rfl⟩, rfl, rfl, rfl⟩

/-- A branch changes the pc alone: to the target where it is taken, on by 2 where it is not. -/
theorem State.branch_effect {s : State} (hpc : s.pc.toNat ≤ 255) (taken : Bool) (target : Byte) :
    (if taken then s.jump target else s.advance 2).pc.toNat = (if taken then target.toNat else s.pc.toNat + 2) ∧
      SameRegsExcept [] s (if taken then s.jump target else s.advance 2) ∧
      SameMemory s (if taken then s.jump target else s.advance 2) ∧
      (if taken then s.jump target else s.advance 2).fl = s.fl ∧
      SameRun s (if taken then s.jump target else s.advance 2) ∧
      SamePorts s (if taken then s.jump target else s.advance 2) := by
  cases taken with
  | true => exact ⟨s.jump_pc_toNat target, fun _ _ => ⟨rfl, rfl⟩, fun _ => rfl, rfl, ⟨rfl, rfl⟩, rfl, rfl, rfl⟩
  | false =>
    exact ⟨State.advance_pc_toNat hpc (by decide), fun _ _ => ⟨rfl, rfl⟩, fun _ => rfl, rfl, ⟨rfl, rfl⟩, rfl, rfl, rfl⟩

/-- Settles O18: JEQ is the branch taken when E is set, after its register is read. -/
theorem jeqBranchesWhenEqualIsSet : Obligations.JeqBranchesWhenEqualIsSet := by
  intro op1 s
  refine ⟨decode_jeq op1, ?_, oneOperandFaults_of_readOperand (exec_jeq_eq_commit op1 s)⟩
  rintro r rfl hw hpc
  exact ⟨_, exec_of_readOperand (exec_jeq_eq_commit _ s) hw, State.branch_effect hpc s.equalFlag (s.reg r)⟩

/-- Settles O19: JNE is the branch taken when E is clear, after its register is read. -/
theorem jneBranchesWhenEqualIsClear : Obligations.JneBranchesWhenEqualIsClear := by
  intro op1 s
  refine ⟨decode_jne op1, ?_, oneOperandFaults_of_readOperand (exec_jne_eq_commit op1 s)⟩
  rintro r rfl hw hpc
  obtain ⟨hbranch, hframe⟩ := State.branch_effect hpc (!s.equalFlag) (s.reg r)
  refine ⟨_, exec_of_readOperand (exec_jne_eq_commit _ s) hw, hbranch.trans ?_, hframe⟩
  exact if_congr (by rw [Bool.not_eq_true', State.equalFlag]) rfl rfl

/-- Settles O20: no row takes operands for the byte, and its meaning is one event and an advance by 1. -/
theorem unrecognizedByteIsLoggedAndSkipped : Obligations.UnrecognizedByteIsLoggedAndSkipped := by
  intro c b s
  refine ⟨decodeWith_of_unrecognized, fun hpc => ?_⟩
  exact ⟨_, exec_unrecognized b s, rfl, State.advance_pc_toNat (s := s.diagnose _) hpc (by decide),
    fun _ _ => ⟨rfl, rfl⟩, fun _ => rfl, rfl, ⟨rfl, rfl⟩, rfl, rfl⟩

end Sys2Proof.Machine
end

section
namespace Sys2Proof.Machine

/-! ### Unchanged registers along several writes -/

theorem SameRegsExcept.trans {l : List (Fin 8)} {s t u : State} (h : SameRegsExcept l s t) (h' : SameRegsExcept l t u) :
    SameRegsExcept l s u := by
  intro j hj
  obtain ⟨hreg, hwritten⟩ := h j hj
  obtain ⟨hreg', hwritten'⟩ := h' j hj
  exact ⟨hreg'.trans hreg, hwritten'.trans hwritten⟩

theorem SameRegsExcept.mono {l l' : List (Fin 8)} {s t : State} (h : SameRegsExcept l s t) (hl : l ⊆ l') :
    SameRegsExcept l' s t :=
  fun j hj => h j fun hj' => hj (hl hj')

/-! ### Operands and the stack pointer -/

theorem exists_regOperand {b : Byte} (h : b.toNat ≤ 7) : ∃ r, b = regOperand r := by
  obtain ⟨r, hr, -⟩ | ⟨hgt, -⟩ := regIndex_cases b
  · exact ⟨r, hr⟩
  · omega

theorem State.setByte_readReg (s : State) (a : Nat) (v : Byte) (j : Fin 8) :
    (s.setByte a v).readReg j = s.readReg j := rfl

theorem State.readReg_writeReg_of_written {s : State} {j : Fin 8} (h : s.isWritten j = true) (i : Fin 8) (v : Byte) :
    (s.writeReg i v).readReg j = .ok (if i = j then v else s.reg j) := by
  rw [State.readReg_of_written (by simp [State.writeReg_isWritten, h]), State.writeReg_reg]

theorem State.readReg_writeReg_of_unwritten {s : State} {i j : Fin 8} (hi : s.isWritten i = true)
    (hj : s.isWritten j = false) (v : Byte) :
    (s.writeReg i v).readReg j = .error ⟨.uninitializedRegister, j.val⟩ := by
  have hne : i ≠ j := by rintro rfl; rw [hi] at hj; cases hj
  rw [State.readReg_writeReg_of_ne hne, State.readReg_of_unwritten hj]

/-- What the push side of PUSH and CALL changes, and what it leaves. -/
theorem State.pushed_effect {s : State} (hwf : s.mem.wf = true) (v : Byte) :
    ((s.pushed v).reg spIndex).toNat = (s.reg spIndex).toNat - 1 ∧ (s.pushed v).isWritten spIndex = true ∧
      (s.pushed v).byteAt ((s.reg spIndex).toNat - 1) = v ∧ SameRegsExcept [spIndex] s (s.pushed v) ∧
      SameMemoryExcept ((s.reg spIndex).toNat - 1) s (s.pushed v) := by
  refine ⟨by rw [State.pushed_reg_sp, toNat_ofNat_pred], s.pushed_isWritten_sp v, ?_, s.pushed_sameRegsExcept v,
    fun a ha => ?_⟩
  · rw [State.byteAt, State.pushed_mem, Memory.readByte_writeByte_same hwf]
  · rw [State.byteAt, State.byteAt, State.pushed_mem, Memory.readByte_writeByte_of_ne ha]

/-! ### PUSH (43_stack.md R121) -/

section
variable {s : State} {r : Fin 8} (hw : s.isWritten spIndex = true)
include hw

/-- PUSH and CALL raise at SP = 0 once the operand byte names a register, whatever follows. -/
theorem exec_of_spDec_zero {i : Instr} {op1 : Byte} {f : Fin 8 → State → Except Raise State}
    (h : exec i s = s.commit (regIndex op1 >>= fun r => s.spDec >>= f r)) (hop : op1.toNat ≤ 7)
    (h0 : (s.reg spIndex).toNat = 0) : exec i s = .next (s.takeFault ⟨.addressOutOfRange, -1⟩) := by
  obtain ⟨r, rfl⟩ := exists_regOperand hop
  rw [h, regIndex_regOperand, State.spDec_of_zero hw h0]
  rfl

theorem exec_push (hr : s.isWritten r = true) (hp : 0 < (s.reg spIndex).toNat) :
    exec (.push (regOperand r)) s =
      .next ((s.pushed (if spIndex = r then BitVec.ofNat 8 ((s.reg spIndex).toNat - 1) else s.reg r)).advance 2) := by
  simp only [exec, execPush, regIndex_regOperand, State.spDec_of_pos hw hp, bind, Except.bind,
    State.readReg_writeReg_of_written hr, State.readReg_writeReg_same, State.memWrite_toNat]
  rfl

theorem exec_push_of_unwritten (hr : s.isWritten r = false) (hp : 0 < (s.reg spIndex).toNat) :
    exec (.push (regOperand r)) s = .next (s.takeFault ⟨.uninitializedRegister, r.val⟩) := by
  simp only [exec, execPush, regIndex_regOperand, State.spDec_of_pos hw hp, bind, Except.bind,
    State.readReg_writeReg_of_unwritten hw hr]
  rfl

/-! ### CALL (44_control.md R135) -/

theorem exec_call (hr : s.isWritten r = true) (hp : 0 < (s.reg spIndex).toNat) (hpc : s.pc.toNat ≤ 253) :
    exec (.call (regOperand r)) s =
      .next ((s.pushed (BitVec.ofNat 8 (s.pc.toNat + 2))).jump
        (if spIndex = r then BitVec.ofNat 8 ((s.reg spIndex).toNat - 1) else s.reg r)) := by
  have hret : ¬ s.pc.toNat + 2 > 255 := by omega
  simp only [exec, execCall, regIndex_regOperand, State.spDec_of_pos hw hp, bind, Except.bind, hret, if_false,
    State.readReg_writeReg_same, State.memWrite_toNat, State.setByte_readReg, State.readReg_writeReg_of_written hr]
  rfl

theorem exec_call_of_return_beyond (hp : 0 < (s.reg spIndex).toNat) (hpc : s.pc.toNat = 254) :
    exec (.call (regOperand r)) s = .next (s.takeFault ⟨.addressOutOfRange, 256⟩) := by
  simp only [exec, execCall, regIndex_regOperand, State.spDec_of_pos hw hp, bind, Except.bind, hpc]
  rfl

theorem exec_call_of_unwritten (hr : s.isWritten r = false) (hp : 0 < (s.reg spIndex).toNat)
    (hpc : s.pc.toNat ≤ 253) :
    exec (.call (regOperand r)) s = .next (s.takeFault ⟨.uninitializedRegister, r.val⟩) := by
  have hret : ¬ s.pc.toNat + 2 > 255 := by omega
  simp only [exec, execCall, regIndex_regOperand, State.spDec_of_pos hw hp, bind, Except.bind, hret, if_false,
    State.readReg_writeReg_same, State.memWrite_toNat, State.setByte_readReg, State.readReg_writeReg_of_unwritten hw hr]
  rfl

/-! ### POP and RET (43_stack.md R122, 44_control.md R136) -/

/-- POP writes the byte at SP to its register and then increments SP, which may be that register. -/
theorem exec_pop (r : Fin 8) : exec (.pop (regOperand r)) s =
    s.commit ((s.writeReg r (s.byteAt (s.reg spIndex).toNat)).spInc >>= fun s1 => .ok (s1.advance 2)) := by
  simp only [exec, execPop, regIndex_regOperand, State.readReg_of_written hw, State.memRead_toNat, bind, Except.bind]

theorem exec_pop_of_ne_sp (hr : r ≠ spIndex) (hp : (s.reg spIndex).toNat < 255) :
    exec (.pop (regOperand r)) s =
      .next (((s.writeReg r (s.byteAt (s.reg spIndex).toNat)).writeReg spIndex
        (BitVec.ofNat 8 ((s.reg spIndex).toNat + 1))).advance 2) := by
  rw [exec_pop hw, State.spInc_of_lt (by rwa [State.writeReg_isWritten_of_ne hr]) (by rwa [State.writeReg_reg_of_ne hr]),
    State.writeReg_reg_of_ne hr]
  rfl

theorem exec_pop_sp (hp : (s.byteAt (s.reg spIndex).toNat).toNat < 255) :
    exec (.pop (regOperand spIndex)) s =
      .next (((s.writeReg spIndex (s.byteAt (s.reg spIndex).toNat)).writeReg spIndex
        (BitVec.ofNat 8 ((s.byteAt (s.reg spIndex).toNat).toNat + 1))).advance 2) := by
  rw [exec_pop hw, State.spInc_of_lt (State.writeReg_isWritten_same ..) (by rwa [State.writeReg_reg_same]),
    State.writeReg_reg_same]
  rfl

/-- POP raises where the increment of the SP it would leave goes beyond 255. -/
theorem exec_pop_of_max (hmax : ((s.writeReg r (s.byteAt (s.reg spIndex).toNat)).reg spIndex).toNat = 255) :
    exec (.pop (regOperand r)) s = .next (s.takeFault ⟨.addressOutOfRange, 256⟩) := by
  rw [exec_pop hw, State.spInc_of_max (by simp [State.writeReg_isWritten, hw]) hmax]
  rfl

theorem exec_ret : exec .ret s =
    s.commit (s.spInc >>= fun s1 => .ok (s1.jump (s.byteAt (s.reg spIndex).toNat))) := by
  simp only [exec, execRet, State.readReg_of_written hw, State.memRead_toNat, bind, Except.bind]

theorem exec_ret_of_lt (hp : (s.reg spIndex).toNat < 255) :
    exec .ret s = .next ((s.writeReg spIndex (BitVec.ofNat 8 ((s.reg spIndex).toNat + 1))).jump
      (s.byteAt (s.reg spIndex).toNat)) := by
  rw [exec_ret hw, State.spInc_of_lt hw hp]
  rfl

end

/-- Settles O13: SPDec, then the register read in the state with the new SP, then the store below the old SP. -/
theorem pushStoresBelowTheStackPointer : Obligations.PushStoresBelowTheStackPointer := by
  intro op1 s hw hwf
  refine ⟨decode_push op1, ?_, fun hgt => State.commit_regIndex_bind_of_gt hgt s _,
    fun hle h0 => exec_of_spDec_zero hw rfl hle h0, ?_⟩
  · rintro r rfl hr hp hpc
    obtain ⟨hsp, hwritten, hbyte, hregs, hmem⟩ := State.pushed_effect hwf
      (if spIndex = r then BitVec.ofNat 8 ((s.reg spIndex).toNat - 1) else s.reg r)
    refine ⟨_, exec_push hw hr hp, hsp, hwritten, hbyte.trans ?_,
      State.advance_pc_toNat (s := s.pushed _) hpc (by decide), hregs, hmem, rfl, ⟨rfl, rfl⟩, rfl, rfl, rfl⟩
    rw [State.advance_reg, State.pushed_reg_sp]
    exact if_congr eq_comm rfl rfl
  · rintro r rfl hp hr
    exact exec_push_of_unwritten hw hr hp

/-- Settles O15: SPDec, the check of the return address, the store below the old SP, then the target's read. -/
theorem callPushesTheReturnAddress : Obligations.CallPushesTheReturnAddress := by
  intro op1 s hw hwf
  refine ⟨decode_call op1, ?_, fun hgt => State.commit_regIndex_bind_of_gt hgt s _,
    fun hle h0 => exec_of_spDec_zero hw rfl hle h0, fun hle hp hpc => ?_, ?_⟩
  · rintro r rfl hr hp hpc
    obtain ⟨hsp, hwritten, hbyte, hregs, hmem⟩ := State.pushed_effect hwf (BitVec.ofNat 8 (s.pc.toNat + 2))
    have hret : (BitVec.ofNat 8 (s.pc.toNat + 2)).toNat = s.pc.toNat + 2 := by
      rw [BitVec.toNat_ofNat, Nat.mod_eq_of_lt (by omega)]
    refine ⟨_, exec_call hw hr hp hpc, hsp, hwritten, (congrArg BitVec.toNat hbyte).trans hret,
      (State.jump_pc_toNat _ _).trans ?_, hregs, hmem, rfl, ⟨rfl, rfl⟩, rfl, rfl, rfl⟩
    rw [State.jump_reg, State.pushed_reg_sp]
    exact congrArg BitVec.toNat (if_congr eq_comm rfl rfl)
  · obtain ⟨r, rfl⟩ := exists_regOperand hle
    exact exec_call_of_return_beyond hw hp hpc
  · rintro r rfl hp hpc hr
    exact exec_call_of_unwritten hw hr hp hpc

/-- Settles O14: the register is written before SP is read again for the increment, which separates R7 from the others. -/
theorem popLoadsFromTheStackPointer : Obligations.PopLoadsFromTheStackPointer := by
  intro op1 s hw
  refine ⟨decode_pop op1, ?_, ?_, fun hgt => State.commit_regIndex_bind_of_gt hgt s _, fun hlt hmax => ?_,
    fun h7 hmax => ?_⟩
  · rintro r rfl hr hp hpc
    refine ⟨_, exec_pop_of_ne_sp hw hr hp, ?_, ?_, ?_, ?_, ?_, ?_, fun _ => rfl, rfl,
      ⟨rfl, rfl⟩, rfl, rfl, rfl⟩
    · rw [State.advance_reg, State.writeReg_reg_of_ne hr.symm, State.writeReg_reg_same]
    · rw [State.advance_isWritten, State.writeReg_isWritten_of_ne hr.symm, State.writeReg_isWritten_same]
    · rw [State.advance_reg, State.writeReg_reg_same, toNat_ofNat_succ hp]
    · rw [State.advance_isWritten, State.writeReg_isWritten_same]
    · exact State.advance_pc_toNat (s := (s.writeReg r _).writeReg spIndex _) hpc (by decide)
    · have hdest := s.writeReg_sameRegsExcept r (s.byteAt (s.reg spIndex).toNat)
      have hsp := (s.writeReg r (s.byteAt (s.reg spIndex).toNat)).writeReg_sameRegsExcept spIndex
        (BitVec.ofNat 8 ((s.reg spIndex).toNat + 1))
      exact (hdest.mono (by simp)).trans (hsp.mono (by simp))
  · rintro rfl hp hpc
    refine ⟨_, exec_pop_sp hw hp, ?_, ?_, ?_, ?_, fun _ => rfl, rfl,
      ⟨rfl, rfl⟩, rfl, rfl, rfl⟩
    · rw [State.advance_reg, State.writeReg_reg_same, toNat_ofNat_succ hp]
    · rw [State.advance_isWritten, State.writeReg_isWritten_same]
    · exact State.advance_pc_toNat (s := (s.writeReg spIndex _).writeReg spIndex _) hpc (by decide)
    · have hdest := s.writeReg_sameRegsExcept spIndex (s.byteAt (s.reg spIndex).toNat)
      exact hdest.trans (State.writeReg_sameRegsExcept _ spIndex
        (BitVec.ofNat 8 ((s.byteAt (s.reg spIndex).toNat).toNat + 1)))
  · obtain ⟨r, rfl⟩ := exists_regOperand (b := op1) (by omega)
    rw [regOperand_toNat] at hlt
    have hr : r ≠ spIndex := by rintro rfl; exact absurd hlt (by decide)
    exact exec_pop_of_max hw (by rwa [State.writeReg_reg_of_ne hr])
  · obtain rfl : op1 = regOperand spIndex := BitVec.eq_of_toNat_eq h7
    exact exec_pop_of_max hw (by rwa [State.writeReg_reg_same])

/-- Settles O16: RET jumps to the byte at SP after SPInc. -/
theorem retPopsThePc : Obligations.RetPopsThePc := by
  intro s hw
  refine ⟨decode_ret, fun hp => ?_, fun hmax => ?_⟩
  · refine ⟨_, exec_ret_of_lt hw hp, State.jump_pc_toNat _ _, ?_, ?_,
      s.writeReg_sameRegsExcept spIndex (BitVec.ofNat 8 ((s.reg spIndex).toNat + 1)), fun _ => rfl, rfl, ⟨rfl, rfl⟩, rfl,
      rfl, rfl⟩
    · rw [State.jump_reg, State.writeReg_reg_same, toNat_ofNat_succ hp]
    · rw [State.jump_isWritten, State.writeReg_isWritten_same]
  · rw [exec_ret hw, State.spInc_of_max hw hmax]
    rfl

/-- SPInc undoes SPDec. -/
theorem ofNat_pred_succ {b : Byte} (h : 0 < b.toNat) : BitVec.ofNat 8 (b.toNat - 1 + 1) = b := by
  rw [Nat.sub_add_cancel h, BitVec.ofNat_toNat, BitVec.setWidth_eq]

/-- Settles O47: what CALL stored at the SP it left is the return address, which RET reads there. -/
theorem retReturnsAfterItsCall : Obligations.RetReturnsAfterItsCall := by
  intro s t u op1 hwf h hs ht hw hsp hbyte
  obtain ⟨r, rfl, -, hp, -, hpc, rfl⟩ | hfault := exec_eq_next h
  · obtain ⟨htsp, -, htbyte, -⟩ := State.pushed_effect hwf (BitVec.ofNat 8 (s.pc.toNat + 2))
    rw [State.jump_reg] at hsp
    rw [State.jump_reg, State.jump_byteAt, htsp, htbyte] at hbyte
    have husp : (u.reg spIndex).toNat = (s.reg spIndex).toNat - 1 := by rw [hsp, htsp]
    have hlt : (u.reg spIndex).toNat < 255 := by have := (s.reg spIndex).isLt; omega
    refine ⟨_, exec_ret_of_lt hw hlt, ?_, ?_, rfl, rfl⟩
    · rw [State.jump_pc_toNat, husp, hbyte, BitVec.toNat_ofNat, Nat.mod_eq_of_lt (by omega)]
    · rw [State.jump_reg, State.writeReg_reg_same, husp, ofNat_pred_succ hp]
  · rw [hfault.run_eq_faulted] at ht
    cases ht

/-! ### LDI r, v; PUSH r; LDI r, 0; POP r (43_stack.md section 2) -/

/-- For a register other than SP the byte pushed is the one popped, and SPInc undoes SPDec. -/
theorem push_then_pop_restores {s : State} {r : Fin 8} {v : Byte} (hw : s.isWritten spIndex = true)
    (hwf : s.mem.wf = true) (hr : r ≠ spIndex) (hp : 0 < (s.reg spIndex).toNat) :
    ∃ t1 t2 t3 t4, exec (.ldi (regOperand r) v) s = .next t1 ∧ exec (.push (regOperand r)) t1 = .next t2 ∧
      exec (.ldi (regOperand r) 0) t2 = .next t3 ∧ exec (.pop (regOperand r)) t3 = .next t4 ∧
      t4.reg r = v ∧ t4.reg spIndex = s.reg spIndex ∧ SameRun s t4 ∧ SameRegsExcept [r, spIndex] s t4 ∧
      SameMemoryExcept ((s.reg spIndex).toNat - 1) s t4 := by
  let t1 := (s.writeReg r v).advance 3
  let t2 := (t1.pushed v).advance 2
  let t3 := (t2.writeReg r 0).advance 3
  have h1r : t1.reg r = v := State.writeReg_reg_same s r v
  have h1sp : t1.reg spIndex = s.reg spIndex := State.writeReg_reg_of_ne hr s v
  have h1w : t1.isWritten spIndex = true := (State.writeReg_isWritten_of_ne hr s v).trans hw
  have hpush : exec (.push (regOperand r)) t1 = .next t2 := by
    rw [exec_push h1w (State.writeReg_isWritten_same s r v) (by rwa [h1sp]), if_neg hr.symm, h1r]
  obtain ⟨h2sp, h2w, h2byte, h2regs, h2mem⟩ := State.pushed_effect (s := t1) hwf v
  rw [h1sp] at h2sp h2byte h2mem
  have h3sp : (t3.reg spIndex).toNat = (s.reg spIndex).toNat - 1 :=
    (congrArg BitVec.toNat (State.writeReg_reg_of_ne hr t2 0)).trans h2sp
  have h3w : t3.isWritten spIndex = true := (State.writeReg_isWritten_of_ne hr t2 0).trans h2w
  have h3byte : t3.byteAt (t3.reg spIndex).toNat = v := by rw [h3sp]; exact h2byte
  have hpop := exec_pop_of_ne_sp h3w hr (by have := (s.reg spIndex).isLt; omega)
  rw [h3byte, h3sp, ofNat_pred_succ hp] at hpop
  refine ⟨t1, t2, t3, _, exec_ldi_regOperand r v s, hpush, exec_ldi_regOperand r 0 t2, hpop, ?_, ?_, ⟨rfl, rfl⟩, ?_, h2mem⟩
  · rw [State.advance_reg, State.writeReg_reg_of_ne hr.symm, State.writeReg_reg_same]
  · rw [State.advance_reg, State.writeReg_reg_same]
  · have hldi := (s.writeReg_sameRegsExcept r v).mono (l' := [r, spIndex]) (by simp)
    have hldi0 := (t2.writeReg_sameRegsExcept r 0).mono (l' := [r, spIndex]) (by simp)
    have hload := (t3.writeReg_sameRegsExcept r v).mono (l' := [r, spIndex]) (by simp)
    have hinc := ((t3.writeReg r v).writeReg_sameRegsExcept spIndex (s.reg spIndex)).mono (l' := [r, spIndex]) (by simp)
    exact ((hldi.trans (h2regs.mono (by simp))).trans hldi0).trans (hload.trans hinc)

/-- For SP itself the second LDI moves the stack to address 0, where POP reads its byte. -/
theorem push_then_pop_sp {s : State} {v : Byte} (hwf : s.mem.wf = true) (hv : 1 < v.toNat)
    (hbyte : (s.byteAt 0).toNat < 255) :
    ∃ t1 t2 t3 t4, exec (.ldi (regOperand spIndex) v) s = .next t1 ∧
      exec (.push (regOperand spIndex)) t1 = .next t2 ∧ exec (.ldi (regOperand spIndex) 0) t2 = .next t3 ∧
      exec (.pop (regOperand spIndex)) t3 = .next t4 ∧
      (t4.reg spIndex).toNat = (s.byteAt 0).toNat + 1 ∧ SameRun s t4 := by
  let t1 := (s.writeReg spIndex v).advance 3
  have h1sp : t1.reg spIndex = v := State.writeReg_reg_same s spIndex v
  have h1w : t1.isWritten spIndex = true := State.writeReg_isWritten_same s spIndex v
  have hpush := exec_push h1w h1w (by rw [h1sp]; omega)
  rw [if_pos rfl, h1sp] at hpush
  obtain ⟨-, -, -, -, h2mem⟩ := State.pushed_effect (s := t1) hwf (BitVec.ofNat 8 (v.toNat - 1))
  let t2 := (t1.pushed (BitVec.ofNat 8 (v.toNat - 1))).advance 2
  let t3 := (t2.writeReg spIndex 0).advance 3
  have h3sp : t3.reg spIndex = 0 := State.writeReg_reg_same t2 spIndex 0
  have h3byte : t3.byteAt (t3.reg spIndex).toNat = s.byteAt 0 := by
    rw [h3sp]
    exact h2mem 0 (by rw [h1sp]; omega)
  have hpop := exec_pop_sp (s := t3) (State.writeReg_isWritten_same t2 spIndex 0) (by rwa [h3byte])
  rw [h3byte] at hpop
  refine ⟨t1, t2, t3, _, exec_ldi_regOperand spIndex v s, hpush, exec_ldi_regOperand spIndex 0 t2, hpop, ?_, rfl, rfl⟩
  rw [State.advance_reg, State.writeReg_reg_same, toNat_ofNat_succ hbyte]

/-- Settles O46: the four instructions one after another, for a register below SP and for SP. -/
theorem pushThenPopRestores : Obligations.PushThenPopRestores := by
  intro s r v hw hwf
  refine ⟨fun hr hp => push_then_pop_restores hw hwf hr hp, ?_⟩
  rintro rfl hv hbyte
  exact push_then_pop_sp hwf hv hbyte

end Sys2Proof.Machine
end

section
namespace Sys2Proof.Machine

/-! ### Runs (40_cycle.md section 3) -/

theorem Steps.trans {c : Config} {k n : Nat} {s t u : State} (h : Steps c k s t) (h' : Steps c n t u) :
    Steps c (k + n) s u := by
  induction k generalizing s with
  | zero => cases h; rwa [Nat.zero_add]
  | succ k ih =>
    obtain ⟨s1, hstep, hrest⟩ := h
    rw [Nat.succ_add]
    exact ⟨s1, hstep, ih hrest⟩

/-- A run of `k + n` steps goes on from the state that `k` steps reach: a step answers at most one next state. -/
theorem Steps.rest {c : Config} {k n : Nat} {s t u : State} (h : Steps c k s t) (h' : Steps c (k + n) s u) :
    Steps c n t u := by
  induction k generalizing s with
  | zero => cases h; rwa [Nat.zero_add] at h'
  | succ k ih =>
    rw [Nat.succ_add] at h'
    obtain ⟨s1, hstep, hrest⟩ := h
    obtain ⟨s1', hstep', hrest'⟩ := h'
    rw [hstep] at hstep'
    cases hstep'
    exact ih hrest hrest'

/-- From a state that does not run there is no step, so a run from it stays there. -/
theorem Steps.eq_of_not_running {c : Config} {n : Nat} {t u : State} (h : Steps c n t u) (ht : t.run ≠ .running) :
    t = u := by
  cases n with
  | zero => exact h
  | succ n =>
    obtain ⟨t1, hstep, -⟩ := h
    exact absurd (stepWith_eq_next hstep).1 ht

/-- Two runs from one state that end in states that do not run end in the same state. -/
theorem Steps.end_unique {c : Config} {k n : Nat} {s t u : State} (h : Steps c k s t) (ht : t.run ≠ .running)
    (h' : Steps c n s u) (hu : u.run ≠ .running) : t = u := by
  obtain hle | hle := Nat.le_total k n
  · obtain ⟨m, rfl⟩ := Nat.exists_eq_add_of_le hle
    exact (h.rest h').eq_of_not_running ht
  · obtain ⟨m, rfl⟩ := Nat.exists_eq_add_of_le hle
    exact ((h'.rest h).eq_of_not_running hu).symm

theorem not_neverEnds_of_end {c : Config} {k : Nat} {s t : State} (h : Steps c k s t) (ht : t.run ≠ .running) :
    ¬ NeverEnds c s := by
  intro hnever
  obtain ⟨u, hu, hrun⟩ := hnever k
  obtain rfl : t = u := h.rest (n := 0) hu
  exact ht hrun

theorem not_endsFaulted_of_endsHalted {c : Config} {s : State} (h : EndsHalted c s) : ¬ EndsFaulted c s := by
  rintro ⟨n, u, hu, hfaulted⟩
  obtain ⟨k, t, ht, hhalted⟩ := h
  have heq := ht.end_unique (by rw [hhalted]; nofun) hu (by rw [hfaulted]; nofun)
  rw [heq, hfaulted] at hhalted
  cases hhalted

/-- A run that does not end has a running state after every number of steps, from which the next step answers. -/
theorem neverEnds_of_not_ends {c : Config} {s : State} (hh : ¬ EndsHalted c s) (hf : ¬ EndsFaulted c s) :
    NeverEnds c s := by
  have hrunning {k : Nat} {t : State} (ht : Steps c k s t) : t.run = .running := by
    cases hrun : t.run with
    | running => rfl
    | halted => exact absurd ⟨k, t, ht, hrun⟩ hh
    | faulted => exact absurd ⟨k, t, ht, hrun⟩ hf
  intro k
  induction k with
  | zero => exact ⟨s, rfl, hrunning (k := 0) rfl⟩
  | succ k ih =>
    obtain ⟨t, ht, hrun⟩ := ih
    obtain ⟨u, hu⟩ := exists_stepWith_eq_next hrun c
    have hsteps : Steps c (k + 1) s u := ht.trans ⟨u, hu, rfl⟩
    exact ⟨u, hsteps, hrunning hsteps⟩

/-- Settles O35: an end is unique because Halted and Faulted have no step, and without one every step is followed by
another. -/
theorem runEndsInExactlyOneWay : Obligations.RunEndsInExactlyOneWay := by
  intro c s
  by_cases hh : EndsHalted c s
  · obtain ⟨k, t, ht, hhalted⟩ := id hh
    exact .inl ⟨hh, not_endsFaulted_of_endsHalted hh, not_neverEnds_of_end ht (by rw [hhalted]; nofun)⟩
  by_cases hf : EndsFaulted c s
  · obtain ⟨k, t, ht, hfaulted⟩ := id hf
    exact .inr (.inl ⟨hh, hf, not_neverEnds_of_end ht (by rw [hfaulted]; nofun)⟩)
  · exact .inr (.inr ⟨hh, hf, neverEnds_of_not_ends hh hf⟩)

/-! ### Unrecognized bytes to the end of memory (60_exceptions.md section 1) -/

/-- A step at an unrecognized byte logs it and goes on to the byte after it. -/
theorem stepWith_of_unrecognized {c : Config} {s : State} (hr : s.run = .running) (hpc : s.pc.toNat ≤ 255)
    (h : rowOf c (s.byteAt s.pc.toNat) = .unrecognized) :
    ∃ t, stepWith c s = .next t ∧ t.run = .running ∧ t.pc.toNat = s.pc.toNat + 1 ∧
      t.diag = s.diag ++ [.unrecognizedOpcode s.pc (s.byteAt s.pc.toNat)] ∧ SameMemory s t ∧ t.out = s.out := by
  have hin : s.pc.toNat + operandCount (rowOf c (s.byteAt s.pc.toNat)) ≤ 255 := by rwa [h]
  have hinstr : s.instrAtPc c = .unrecognized (s.byteAt s.pc.toNat) := by rw [State.instrAtPc, h]; rfl
  refine ⟨_, by rw [stepWith_of_inside hr hin, hinstr, exec_unrecognized], ?_, ?_, ?_, fun a => ?_, ?_⟩
  · rw [State.advance_run, State.diagnose_run, State.emitTrace_run, hr]
  · rw [State.advance_pc_toNat (by simpa using hpc) (by decide), State.diagnose_pc, State.emitTrace_pc]
  · rw [State.advance_diag, State.diagnose_diag, State.emitTrace_diag, State.emitTrace_pc]
  · rw [State.advance_byteAt, State.diagnose_byteAt, State.emitTrace_byteAt]
  · rw [State.advance_out, State.diagnose_out, State.emitTrace_out]

/-- The events of `n` unrecognized bytes from an address on. -/
def unrecognizedEvents (s : State) (a n : Nat) : List DiagEvent :=
  (List.range n).map fun k => .unrecognizedOpcode (BitVec.ofNat 9 (a + k)) (s.byteAt (a + k))

/-- The first event and then those from the next address on, in any state with the same memory. -/
theorem unrecognizedEvents_succ {s t : State} (h : SameMemory s t) (a n : Nat) :
    unrecognizedEvents s a (n + 1) =
      .unrecognizedOpcode (BitVec.ofNat 9 a) (s.byteAt a) :: unrecognizedEvents t (a + 1) n := by
  rw [unrecognizedEvents, List.range_succ_eq_map, List.map_cons, List.map_map, unrecognizedEvents]
  refine congrArg₂ List.cons rfl (List.map_congr_left fun k _ => ?_)
  rw [Function.comp_apply, h, Nat.add_right_comm, Nat.add_assoc, Nat.succ_eq_add_one]

/-- `n` unrecognized bytes up to the end of memory take `n` steps to the pc 256, each logged. -/
theorem steps_over_unrecognized {c : Config} {s : State} {n : Nat} (hr : s.run = .running)
    (hpc : s.pc.toNat + n = 256)
    (h : ∀ a, s.pc.toNat ≤ a → a ≤ 255 → rowOf c (s.byteAt a) = .unrecognized) :
    ∃ t, Steps c n s t ∧ t.run = .running ∧ t.pc.toNat = 256 ∧
      t.diag = s.diag ++ unrecognizedEvents s s.pc.toNat n ∧ t.out = s.out := by
  induction n generalizing s with
  | zero => exact ⟨s, rfl, hr, hpc, (List.append_nil _).symm, rfl⟩
  | succ n ih =>
    obtain ⟨s1, hstep, hr1, hpc1, hdiag1, hmem1, hout1⟩ :=
      stepWith_of_unrecognized hr (by omega) (h _ (Nat.le_refl _) (by omega))
    obtain ⟨t, ht, hrt, hpct, hdiagt, houtt⟩ :=
      ih hr1 (by omega) fun a hlo hhi => by rw [hmem1]; exact h a (by omega) hhi
    refine ⟨t, ⟨s1, hstep, ht⟩, hrt, hpct, ?_, houtt.trans hout1⟩
    rw [hdiagt, hdiag1, hpc1, unrecognizedEvents_succ hmem1, List.append_assoc, List.singleton_append,
      BitVec.ofNat_toNat, BitVec.setWidth_eq]

/-- Settles O48: by induction on the number of bytes left; the pc then stands at 256, where the fetch faults. -/
theorem unrecognizedBytesToTheEndOfMemoryEndInAFault :
    Obligations.UnrecognizedBytesToTheEndOfMemoryEndInAFault := by
  intro c s hr hpc h
  obtain ⟨t, ht, hrt, hpct, hdiag, hout⟩ := steps_over_unrecognized (n := 256 - s.pc.toNat) hr (by omega) h
  refine ⟨t, _, ht, hrt, hpct, hdiag, stepWith_of_pc_beyond hrt (by omega), rfl, ?_, ?_⟩
  · have hpc256 : t.pc = 256 := BitVec.eq_of_toNat_eq hpct
    rw [State.takeFault_fault, State.emitTrace_pc, hpc256]
    rfl
  · rw [State.takeFault_out, State.emitTrace_out, hout]

end Sys2Proof.Machine
end
